-- ==== Sys2Proof/Word.lean ====
section
/-! DEFINITION. The widths of the block's words (00_scope R10, R9) and the carrier of a binary64 value (00_scope R10, R11). -/

namespace Sys2Proof

/-- One byte on the two-wire bus (`u8`). -/
abbrev Byte := BitVec 8

/-- A command or event word (`u32`), 30_encoding R81. -/
abbrev Word := BitVec 32

/-- An interval count, `INTERVAL_BITS` = 24 (10_state R23). -/
abbrev Interval := BitVec 24

/-- A gain index, one of `NGAIN` = 8 (30_encoding R83). -/
abbrev GainIndex := BitVec 3

/-- A binary64 value, by its bit pattern (`f64`, 00_scope R10): sign in bit 63, exponent in 62:52, fraction in 51:0. -/
structure F64 where
  bits : BitVec 64
  deriving DecidableEq, Repr, Inhabited

end Sys2Proof
end

