-- ==== Sys2Proof/Syntax.lean ====
section
/-! DEFINITION. The operations of the block, one constructor per row of spec/opcode_table.json, and the things the table encodes
them as: events of the event stream and transfers of the two-wire bus. -/

namespace Sys2Proof

/-- The sensor's register names, the "fixed enumerated address space" (20_memory R50, 30_encoding R92). -/
inductive RegName where
  | configA | configB | mode
  | dataXMsb | dataXLsb | dataZMsb | dataZLsb | dataYMsb | dataYLsb
  | status | idA | idB | idC
  deriving DecidableEq, Repr, Inhabited

/-- Every register name, in the order of 30_encoding R92's table. -/
def RegName.all : List RegName :=
  [.configA, .configB, .mode, .dataXMsb, .dataXLsb, .dataZMsb, .dataZLsb, .dataYMsb, .dataYLsb, .status, .idA, .idB, .idC]

/-- The sensor's modes (00_scope R15, "Mode"). -/
inductive Mode where
  | continuous | singleShot | idle | sleep
  deriving DecidableEq, Repr, Inhabited

/-- The operations: the six host commands, the two environment events, and the three transfers of the register-protocol unit
(00_scope R3, 30_encoding R103). -/
inductive Instr where
  /-- REQ, 43_sampling_controller R192. -/
  | req
  /-- SETGAIN g, R195. -/
  | setgain (g : GainIndex)
  /-- START, R198. -/
  | start
  /-- STOP, R201. -/
  | stop
  /-- SETIVL t, R203. -/
  | setivl (t : Interval)
  /-- GETIVL, R206. -/
  | getivl
  /-- TICK, R208. -/
  | tick
  /-- DRDY, R211. -/
  | drdy
  /-- WRREG(reg, value), 40_register_protocol R123. -/
  | wrreg (reg : RegName) (value : Byte)
  /-- RDBYTE(reg), R121. -/
  | rdbyte (reg : RegName)
  /-- RDBLK(reg, n), R122. -/
  | rdblk (reg : RegName) (n : Nat)
  deriving DecidableEq, Repr, Inhabited

/-- One event of the single event stream (30_encoding R88, 43_sampling_controller R190): a word from the host port, a callback
of the timer, or a data-ready edge. The last two carry no payload (30_encoding R80). -/
inductive Event where
  | host (w : Word)
  | timer
  | interrupt
  deriving DecidableEq, Repr, Inhabited

/-- One bus transfer as the block puts it on the bus (00_scope R13): `BusWrite(bytes)` or `BusWriteRead(wbytes, n)`. -/
inductive BusRequest where
  | write (bytes : List Byte)
  | writeRead (wbytes : List Byte) (n : Nat)
  deriving DecidableEq, Repr, Inhabited

/-- What a row of the opcode table encodes an operation as: formats CMD and EVT are events, formats BUS_WRITE and BUS_WRITE_READ
are transfers. -/
inductive Code where
  | event (e : Event)
  | bus (r : BusRequest)
  deriving DecidableEq, Repr, Inhabited

/-- The pseudo-instruction STARTIVL t (30_encoding R102): SETIVL t, then START. -/
def startIvl (t : Interval) : List Instr := [.setivl t, .start]

end Sys2Proof
end

