-- ==== Sys2Proof/Config.lean ====
section
/-! DEFINITION. What an implementation of the block fixes (00_scope R9) and the free values. The parameters the spec gives a default
are the fields of `Params`, an argument of everything that uses them; the open ones are constants with no body, and nothing here says what they are. -/

namespace Sys2Proof

/-! ### The parameters the spec leaves open -/

/-- How many values the open type `ERR_INFO` has, less one: any number. DESIGN CHOICE, log 7. -/
opaque Config.errInfoKinds : Nat

/-- `INTERVAL_UNIT`, OPEN: the time one interval count represents, in seconds (10_state R23, U7). Not observable in a model without
time. DESIGN CHOICE, log 12. -/
opaque Config.intervalUnit : Rat

/-- What a failed transfer carries: a value of the OPEN type `ERR_INFO`, passed on and never looked into (60_exceptions R241, U13).
DESIGN CHOICE, log 7: a nonempty type of an unknown number of values. -/
structure ErrInfo where
  token : Fin (Config.errInfoKinds + 1)
  deriving DecidableEq, Repr, Inhabited

/-- What a completed transfer answers (00_scope R13): the bytes read (none for a write), or an error. -/
inductive BusResult where
  | ok (bytes : List Byte)
  | err (e : ErrInfo)
  deriving DecidableEq, Repr, Inhabited

/-- What the bus does with one transfer: it completes with a result, or it never completes (60_exceptions R260). -/
inductive BusAnswer where
  | done (r : BusResult)
  | never
  deriving DecidableEq, Repr, Inhabited

/-- `BLOCK_LEN`, bytes in one sample block (00_scope R9). -/
def Config.blockLen : Nat := 6

/-- `SENTINEL`, the overflow sentinel (00_scope R9, 41_sample_decoder R144). -/
def Config.sentinel : Int := -4096

/-- `BLOCK_MAX`, the largest n of RDBLK (40_register_protocol R122). -/
def Config.blockMax : Nat := 255

/-! ### The parameters the spec gives a default -/

/-- `REG_ADDR` (30_encoding R92, U18). The constraint on its values holds by construction: the six data registers are given by the address
of the first, and the others follow it (92_eei_decisions D8: "the six data registers are consecutive in the order X-high, X-low, Z-high,
Z-low, Y-high, Y-low"). -/
structure RegMap where
  configA : Byte
  configB : Byte
  mode : Byte
  /-- The address of DATA_X_MSB; 0xFA is the last with five more byte addresses after it. -/
  data : Fin 251
  status : Byte
  idA : Byte
  idB : Byte
  idC : Byte
  deriving DecidableEq, Repr, Inhabited

/-- `MODE_CODE`: the byte written to the mode register for each Mode (30_encoding R93, U19). -/
structure ModeCodes where
  continuous : Byte
  singleShot : Byte
  idle : Byte
  sleep : Byte
  deriving DecidableEq, Repr, Inhabited

/-- `GAIN_CODE`: the byte written for each of the `NGAIN` gain indices (30_encoding R94, U20). -/
structure GainCodes where
  g0 : Byte
  g1 : Byte
  g2 : Byte
  g3 : Byte
  g4 : Byte
  g5 : Byte
  g6 : Byte
  g7 : Byte
  deriving DecidableEq, Repr, Inhabited

/-- `FORM`, the form of the denominator (42_angle_estimator R165, R166). -/
inductive AtanxForm where
  | monic5 | lit4
  deriving DecidableEq, Repr, Inhabited

/-- `ATANX = (FORM, P0 … P4, Q0 … Q4)` (42_angle_estimator R165, U22). -/
structure Atanx where
  form : AtanxForm
  p0 : F64
  p1 : F64
  p2 : F64
  p3 : F64
  p4 : F64
  q0 : F64
  q1 : F64
  q2 : F64
  q3 : F64
  q4 : F64
  deriving DecidableEq, Repr, Inhabited

/-- The parameters of 00_scope R9 that have a default: one value of this type is one block with its sensor. The default instance is
`Params.default`. -/
structure Params where
  /-- `REG_ADDR` -/
  regAddr : RegMap
  /-- `MODE_CODE` -/
  modeCode : ModeCodes
  /-- `GAIN_REG` (30_encoding R94). DESIGN CHOICE, log 15: any register name, since the spec states no range for it; the default CONFIG_B
  is none of the registers 40_register_protocol R127 says are never accessed. -/
  gainReg : RegName
  /-- `GAIN_CODE` -/
  gainCode : GainCodes
  /-- `DEV_ADDR`, held by the bus collaborator (20_memory R52) -/
  devAddr : BitVec 7
  /-- `ATANX` -/
  atanx : Atanx
  deriving DecidableEq, Repr, Inhabited

/-! ### Open values -/

/-- `INTERVAL_RESET`, OPEN (10_state R23). DESIGN CHOICE, log 1. -/
opaque Config.intervalReset : Interval

/-- What `gain` holds at reset: any value (10_state R24, U8). DESIGN CHOICE, log 2. -/
opaque Config.gainReset : GainIndex

/-- What `last_mode` holds at reset: any value (10_state R25, U8). DESIGN CHOICE, log 2. -/
opaque Config.lastModeReset : Mode

/-- The answer to the n-th transfer where the environment's script names none: any bytes or an error (20_memory R57, U10).
DESIGN CHOICE, log 4. -/
opaque Config.busResult : Nat → BusResult

/-- The error reported for the n-th transfer where its answer has the wrong length (U11): any value. DESIGN CHOICE, log 6. -/
opaque Config.lengthError : Nat → ErrInfo

end Sys2Proof
end

