-- ==== Sys2Proof/Machine/Float64.lean ====
section
/-! DEFINITION. IEEE 754 binary64 arithmetic as 00_scope R11 fixes it: every operation computes the exact result and rounds it once, to
nearest with ties to even. -/

namespace Sys2Proof

/-- What a bit pattern stands for: no number, an infinity, or the number (-1)^neg · m · 2^e. -/
inductive F64.Class where
  | nan
  | inf (neg : Bool)
  | fin (neg : Bool) (m : Nat) (e : Int)
  deriving DecidableEq, Repr

/-- The bits below the sign bit. -/
def F64.magnitude (x : F64) : Nat := x.bits.toNat % 2 ^ 63

/-- The sign bit. -/
def F64.sign (x : F64) : Bool := decide (2 ^ 63 ≤ x.bits.toNat)

/-- The magnitude of the infinities: exponent field all ones, fraction 0. -/
def F64.infMagnitude : Nat := 0x7FF0000000000000

def F64.classify (x : F64) : F64.Class :=
  let ex : Nat := x.magnitude / 2 ^ 52
  let fr : Nat := x.magnitude % 2 ^ 52
  if ex = 2047 then (if fr = 0 then .inf x.sign else .nan)
  else if ex = 0 then .fin x.sign fr (-1074)
  else .fin x.sign (2 ^ 52 + fr) ((ex : Int) - 1075)

/-- The pattern with a sign and a magnitude. -/
def F64.ofMagnitude (neg : Bool) (mag : Nat) : F64 := ⟨BitVec.ofNat 64 ((if neg then 2 ^ 63 else 0) + mag)⟩

/-- The one quiet NaN the operations answer. DESIGN CHOICE, log 10: the block makes no NaN (42_angle_estimator R167). -/
def F64.qnan : F64 := ⟨0x7FF8000000000000#64⟩

def F64.isNaN (x : F64) : Bool := decide (F64.infMagnitude < x.magnitude)

def F64.isFinite (x : F64) : Bool := decide (x.magnitude < F64.infMagnitude)

/-- `m / 2^k` rounded to the nearest natural number, ties to even. -/
def roundShift (m k : Nat) : Nat :=
  if 2 ^ k < 2 * (m % 2 ^ k) ∨ (2 * (m % 2 ^ k) = 2 ^ k ∧ m / 2 ^ k % 2 = 1) then m / 2 ^ k + 1 else m / 2 ^ k

/-- The weight of the last place of the binary64 number nearest to m · 2^e: 53 significant bits, but never below 2^-1074. -/
def lastPlace (m : Nat) (e : Int) : Int := max (e + Nat.log2 m - 52) (-1074)

/-- (-1)^neg · m · 2^e rounded once to binary64, ties to even; what is too large becomes an infinity. -/
def F64.round (neg : Bool) (m : Nat) (e : Int) : F64 :=
  if m = 0 then F64.ofMagnitude neg 0
  else
    let lsb := lastPlace m e
    let q := if lsb ≤ e then m * 2 ^ (e - lsb).toNat else roundShift m (lsb - e).toNat
    F64.ofMagnitude neg (min ((lsb + 1074).toNat * 2 ^ 52 + q) F64.infMagnitude)

/-- (-1)^neg · (a / b) · 2^e, b not 0, rounded once: the quotient is taken to at least 55 bits, with a last bit that says whether
anything was left over. -/
def F64.roundQuotient (neg : Bool) (a b : Nat) (e : Int) : F64 :=
  let k := 56 + Nat.log2 b - Nat.log2 a
  let q := a * 2 ^ k / b
  let rest := if a * 2 ^ k % b = 0 then 0 else 1
  F64.round neg (2 * q + rest) (e - k - 1)

/-- Unary minus: the sign bit flips. -/
def F64.neg (x : F64) : F64 := F64.ofMagnitude (!x.sign) x.magnitude

/-- `abs`: the sign bit clears. -/
def F64.abs (x : F64) : F64 := F64.ofMagnitude false x.magnitude

/-- The signed integer (-1)^neg · m. -/
def signed (neg : Bool) (m : Nat) : Int := if neg then -(m : Int) else m

/-- `+`. An exact zero sum is -0 only where both operands are negative. -/
def F64.add (x y : F64) : F64 :=
  match x.classify, y.classify with
  | .fin sx mx ex, .fin sy my ey =>
    let e := min ex ey
    let sum := signed sx (mx * 2 ^ (ex - e).toNat) + signed sy (my * 2 ^ (ey - e).toNat)
    if sum = 0 then F64.ofMagnitude (sx && sy) 0 else F64.round (decide (sum < 0)) sum.natAbs e
  | .fin _ _ _, .inf sy => F64.ofMagnitude sy F64.infMagnitude
  | .inf sx, .fin _ _ _ => F64.ofMagnitude sx F64.infMagnitude
  | .inf sx, .inf sy => if sx = sy then F64.ofMagnitude sx F64.infMagnitude else F64.qnan
  | .nan, _ => F64.qnan
  | _, .nan => F64.qnan

/-- Binary `-`. -/
def F64.sub (x y : F64) : F64 := F64.add x (F64.neg y)

/-- `*`. -/
def F64.mul (x y : F64) : F64 :=
  match x.classify, y.classify with
  | .fin sx mx ex, .fin sy my ey => F64.round (sx != sy) (mx * my) (ex + ey)
  | .fin sx mx _, .inf sy => if mx = 0 then F64.qnan else F64.ofMagnitude (sx != sy) F64.infMagnitude
  | .inf sx, .fin sy my _ => if my = 0 then F64.qnan else F64.ofMagnitude (sx != sy) F64.infMagnitude
  | .inf sx, .inf sy => F64.ofMagnitude (sx != sy) F64.infMagnitude
  | .nan, _ => F64.qnan
  | _, .nan => F64.qnan

/-- `/`. -/
def F64.div (x y : F64) : F64 :=
  match x.classify, y.classify with
  | .fin sx mx ex, .fin sy my ey =>
    if my = 0 then (if mx = 0 then F64.qnan else F64.ofMagnitude (sx != sy) F64.infMagnitude)
    else F64.roundQuotient (sx != sy) mx my (ex - ey)
  | .fin sx _ _, .inf sy => F64.ofMagnitude (sx != sy) 0
  | .inf sx, .fin sy _ _ => F64.ofMagnitude (sx != sy) F64.infMagnitude
  | .inf _, .inf _ => F64.qnan
  | .nan, _ => F64.qnan
  | _, .nan => F64.qnan

/-- The place of a number in the order of the numbers: both zeros are 0. -/
def F64.key (x : F64) : Int := signed x.sign x.magnitude

/-- `==`, false where an operand is no number. -/
def F64.eq (x y : F64) : Bool := !x.isNaN && !y.isNaN && decide (x.key = y.key)

/-- `<`, false where an operand is no number. -/
def F64.lt (x y : F64) : Bool := !x.isNaN && !y.isNaN && decide (x.key < y.key)

/-- `>`. -/
def F64.gt (x y : F64) : Bool := F64.lt y x

/-- `>=`. -/
def F64.ge (x y : F64) : Bool := !x.isNaN && !y.isNaN && decide (y.key ≤ x.key)

/-- `toF64(n)`, exact for |n| < 2^53 (00_scope R11). -/
def toF64 (n : Int) : F64 := F64.round (decide (n < 0)) n.natAbs 0

/-- The rational number a finite pattern stands for (0 for a pattern that is no finite number). -/
def F64.toRat (x : F64) : Rat :=
  match x.classify with
  | .fin neg m e => (signed neg m : Rat) * (2 : Rat) ^ e
  | _ => 0

end Sys2Proof
end

