-- ==== Sys2Proof/Machine/Angle.lean ====
section
/-! DEFINITION. The angle estimator (42_angle_estimator): ANGLE, ATAN2, ATANS and ATANX, in the order of operations the spec writes. It
holds no state and uses no library arctangent (R171). -/

namespace Sys2Proof.Machine

/-- +0.0 -/
def zeroF : F64 := ⟨0x0000000000000000#64⟩

/-- 1.0 -/
def oneF : F64 := ⟨0x3FF0000000000000#64⟩

/-- `PIO2` (42_angle_estimator R161). -/
def pio2 : F64 := ⟨0x3FF921FB54442D18#64⟩

/-- `PIO4` (R161). -/
def pio4 : F64 := ⟨0x3FE921FB54442D18#64⟩

/-- `PI = PIO2 + PIO2` (R161). -/
def piF : F64 := F64.add pio2 pio2

/-- `SQ2M1` (R161). -/
def sq2m1 : F64 := ⟨0x3FDA827999FCEF32#64⟩

/-- `SQ2P1` (R161). -/
def sq2p1 : F64 := ⟨0x4003504F333F9DE6#64⟩

/-- `C180` (R161). -/
def c180 : F64 := ⟨0x4066800000000000#64⟩

/-- `K = 180.0 / PI`, one division (R161). -/
def kF : F64 := F64.div c180 piF

/-- The default `ATANX` (42_angle_estimator R172). UNVERIFIED, log 9. -/
def atanxDefault : Atanx where
  form := .monic5
  p4 := ⟨0x40302755093F2ED0#64⟩
  p3 := ⟨0x4070C6CEC62A9EF1#64⟩
  p2 := ⟨0x4092041E0E5489E2#64⟩
  p1 := ⟨0x409BD1A0116A41A2#64⟩
  p0 := ⟨0x408C0649ACC176F2#64⟩
  q4 := ⟨0x404D7A7E027680C9#64⟩
  q3 := ⟨0x4080C21F7C6B8A38#64⟩
  q2 := ⟨0x409A0B22A05E4AF1#64⟩
  q1 := ⟨0x40A03EAB81C54010#64⟩
  q0 := ⟨0x408C0649ACC176F2#64⟩

/-- `acc * t + c`, two roundings (00_scope R11). -/
def horner (t acc c : F64) : F64 := F64.add (F64.mul acc t) c

/-- The numerator of ATANX at t. -/
def atanxNum (c : Atanx) (t : F64) : F64 := horner t (horner t (horner t (horner t c.p4 c.p3) c.p2) c.p1) c.p0

/-- The denominator of ATANX at t. -/
def atanxDen (c : Atanx) (t : F64) : F64 :=
  match c.form with
  | .monic5 => horner t (horner t (horner t (horner t (F64.add t c.q4) c.q3) c.q2) c.q1) c.q0
  | .lit4 => horner t (horner t (horner t (horner t c.q4 c.q3) c.q2) c.q1) c.q0

/-- ATANX (42_angle_estimator R165). -/
def atanx (c : Atanx) (v : F64) : F64 :=
  let t := F64.mul v v
  F64.mul (F64.div (atanxNum c t) (atanxDen c t)) v

/-- ATANS (42_angle_estimator R164). -/
def atans (c : Atanx) (v : F64) : F64 :=
  if F64.lt (F64.abs v) sq2m1 then atanx c v
  else if F64.gt (F64.abs v) sq2p1 then F64.sub pio2 (atanx c (F64.div oneF v))
  else F64.add pio4 (atanx c (F64.div (F64.sub v oneF) (F64.add v oneF)))

/-- ATAN2 (42_angle_estimator R163): the first argument is the y reading, the second the x reading (C3). -/
def atan2 (c : Atanx) (a b : F64) : F64 :=
  if F64.eq (F64.add a b) a then
    if F64.eq a zeroF && F64.eq b zeroF then zeroF
    else if F64.ge a zeroF then pio2
    else F64.neg pio2
  else if F64.lt b zeroF then
    if F64.ge a zeroF then F64.sub piF (atans c (F64.div (F64.neg a) b))
    else F64.add (F64.neg piF) (atans c (F64.div a b))
  else if F64.gt a zeroF then atans c (F64.div a b)
  else F64.neg (atans c (F64.div (F64.neg a) b))

/-- ANGLE (42_angle_estimator R162), in degrees. -/
def angle (c : Atanx) (x y : Int) : F64 :=
  F64.add (F64.mul (atan2 c (toF64 y) (toF64 x)) kF) c180

end Sys2Proof.Machine
end

