-- ==== Sys2Proof/Machine/Operands.lean ====
section
/-! DEFINITION. The operand forms: the fields of a command word (30_encoding R81) and the bytes that stand for register names,
modes and gain indices on the bus (30_encoding R92 to R94). The byte values are parameters
(00_scope R9), and `Params.default` is the spec's concrete instance of them. -/

namespace Sys2Proof.Machine

/-- `OP = cmd[3:0]` (30_encoding R81). -/
def opField (w : Word) : BitVec 4 := w.extractLsb' 0 4

/-- `GAIN = cmd[6:4]` (30_encoding R83). -/
def gainField (w : Word) : GainIndex := w.extractLsb' 4 3

/-- `IVL = cmd[31:8]` (30_encoding R84). -/
def ivlField (w : Word) : Interval := w.extractLsb' 8 24

/-! ### The bytes on the bus, by the parameters -/

/-- The address of the k-th data register, in the order of 30_encoding R92: consecutive addresses from the first (92_eei_decisions D8). -/
def dataAddr (p : Params) (k : Nat) : Byte := BitVec.ofNat 8 (p.regAddr.data.val + k)

/-- `REG_ADDR(reg)` (30_encoding R92). -/
def regAddr (p : Params) : RegName → Byte
  | .configA => p.regAddr.configA
  | .configB => p.regAddr.configB
  | .mode => p.regAddr.mode
  | .dataXMsb => dataAddr p 0
  | .dataXLsb => dataAddr p 1
  | .dataZMsb => dataAddr p 2
  | .dataZLsb => dataAddr p 3
  | .dataYMsb => dataAddr p 4
  | .dataYLsb => dataAddr p 5
  | .status => p.regAddr.status
  | .idA => p.regAddr.idA
  | .idB => p.regAddr.idB
  | .idC => p.regAddr.idC

/-- The register name an address byte stands for, if it is an entry of `REG_ADDR`: the first, in the table's order, where two names
share an address (log 8). -/
def regOfAddr (p : Params) (a : Byte) : Option RegName := RegName.all.find? (fun r => regAddr p r == a)

/-- `MODE_CODE(m)` (30_encoding R93). -/
def modeCode (p : Params) : Mode → Byte
  | .continuous => p.modeCode.continuous
  | .singleShot => p.modeCode.singleShot
  | .idle => p.modeCode.idle
  | .sleep => p.modeCode.sleep

/-- `GAIN_CODE(g)` (30_encoding R94). -/
def gainCode (p : Params) (g : GainIndex) : Byte :=
  match g.toNat with
  | 0 => p.gainCode.g0
  | 1 => p.gainCode.g1
  | 2 => p.gainCode.g2
  | 3 => p.gainCode.g3
  | 4 => p.gainCode.g4
  | 5 => p.gainCode.g5
  | 6 => p.gainCode.g6
  | _ => p.gainCode.g7

/-! ### The default instance. UNVERIFIED, log 8 -/

/-- `REG_ADDR`, its default (30_encoding R92). -/
def regMapDefault : RegMap where
  configA := 0x00#8
  configB := 0x01#8
  mode := 0x02#8
  data := 0x03
  status := 0x09#8
  idA := 0x0A#8
  idB := 0x0B#8
  idC := 0x0C#8

/-- `MODE_CODE`, its default (30_encoding R93). -/
def modeCodesDefault : ModeCodes where
  continuous := 0x00#8
  singleShot := 0x01#8
  idle := 0x02#8
  sleep := 0x03#8

/-- `GAIN_CODE(g) = g << 5`, its default (30_encoding R94). -/
def gainCodesDefault : GainCodes where
  g0 := 0x00#8
  g1 := 0x20#8
  g2 := 0x40#8
  g3 := 0x60#8
  g4 := 0x80#8
  g5 := 0xA0#8
  g6 := 0xC0#8
  g7 := 0xE0#8

end Sys2Proof.Machine

namespace Sys2Proof

open Machine

/-- The spec's defaults together: its choice for a concrete instance (00_scope R9). -/
def Params.default : Params where
  regAddr := regMapDefault
  modeCode := modeCodesDefault
  gainReg := .configB
  gainCode := gainCodesDefault
  devAddr := 0x1E#7
  atanx := atanxDefault

/-- No two register names share an address. -/
def Params.Distinct (p : Params) : Prop := ∀ r r' : RegName, Machine.regAddr p r = Machine.regAddr p r' → r = r'

/-- The constraint the spec puts on every `REG_ADDR` (30_encoding R92, 92_eei_decisions D8): the data registers are consecutive in the
order X high, X low, Z high, Z low, Y high, Y low. Every value of `Params` meets it. -/
def DataInOrder (addr : RegName → Byte) : Prop :=
  (addr .dataXLsb).toNat = (addr .dataXMsb).toNat + 1 ∧ (addr .dataZMsb).toNat = (addr .dataXMsb).toNat + 2 ∧
  (addr .dataZLsb).toNat = (addr .dataXMsb).toNat + 3 ∧ (addr .dataYMsb).toNat = (addr .dataXMsb).toNat + 4 ∧
  (addr .dataYLsb).toNat = (addr .dataXMsb).toNat + 5

end Sys2Proof
end

