-- ==== Sys2Proof/WellFormed.lean ====
section
/-! DEFINITION. Which instructions are well formed. Only RDBLK has an operand whose type admits more than the spec does. -/

namespace Sys2Proof

/-- RDBLK reads 1 to `BLOCK_MAX` bytes (40_register_protocol R122); every gain index and every interval is legal (30_encoding
R83, R84), and a register name is always one of `REG_ADDR`. -/
def Instr.wellFormed : Instr → Bool
  | .rdblk _ n => decide (1 ≤ n ∧ n ≤ Config.blockMax)
  | .req => true
  | .setgain _ => true
  | .start => true
  | .stop => true
  | .setivl _ => true
  | .getivl => true
  | .tick => true
  | .drdy => true
  | .wrreg _ _ => true
  | .rdbyte _ => true

end Sys2Proof
end

