-- ==== Sys2Proof/Decode.lean ====
section
/-! DEFINITION. The decoder, total, with a named reason for every rejection, and after it the encoder (30_encoding). -/

namespace Sys2Proof

open Machine (opField gainField ivlField regAddr regOfAddr)

/-- Why a code is no instruction. -/
inductive DecodeError where
  /-- OP 0x0, 0x7 or 0xA to 0xF (30_encoding R82). -/
  | reservedOp
  /-- OP 0x8 or 0x9 on the host port (30_encoding R88). -/
  | eventCodeFromHost
  /-- A bit the operation does not use is 1 (30_encoding R85). -/
  | reservedBits
  /-- A transfer whose address byte is no entry of `REG_ADDR` (20_memory R50). -/
  | unknownAddress
  /-- A transfer of none of the three shapes (30_encoding R89 to R91). -/
  | transferShape
  deriving DecidableEq, Repr

/-- `i`, where the reserved bits are all 0 (30_encoding R85). -/
def unlessReserved {n : Nat} (reserved : BitVec n) (i : Instr) : Except DecodeError Instr :=
  if reserved = 0 then .ok i else .error .reservedBits

/-- A word of the host port (30_encoding R81 to R85). -/
def decodeHost (w : Word) : Except DecodeError Instr :=
  match (opField w).toNat with
  | 0x1 => unlessReserved (w.extractLsb' 4 28) .req
  | 0x2 => unlessReserved (w.extractLsb' 7 25) (.setgain (gainField w))
  | 0x3 => unlessReserved (w.extractLsb' 4 28) .start
  | 0x4 => unlessReserved (w.extractLsb' 4 28) .stop
  | 0x5 => unlessReserved (w.extractLsb' 4 4) (.setivl (ivlField w))
  | 0x6 => unlessReserved (w.extractLsb' 4 28) .getivl
  | 0x8 => .error .eventCodeFromHost
  | 0x9 => .error .eventCodeFromHost
  | _ => .error .reservedOp

/-- An event, by its source (43_sampling_controller R190). -/
def decodeEvent : Event → Except DecodeError Instr
  | .host w => decodeHost w
  | .timer => .ok .tick
  | .interrupt => .ok .drdy

/-- The instruction `f` makes of the register an address byte names. -/
def withReg (p : Params) (a : Byte) (f : RegName → Instr) : Except DecodeError Instr :=
  match regOfAddr p a with
  | some r => .ok (f r)
  | none => .error .unknownAddress

/-- A transfer (30_encoding R89 to R91). One byte read back is RDBYTE: RDBLK(reg, 1) is the same transfer (log 3). -/
def decodeBus (p : Params) : BusRequest → Except DecodeError Instr
  | .write [a, v] => withReg p a (fun r => .wrreg r v)
  | .writeRead [a] n =>
      if n = 1 then withReg p a (fun r => .rdbyte r)
      else if 1 ≤ n ∧ n ≤ Config.blockMax then withReg p a (fun r => .rdblk r n)
      else .error .transferShape
  | _ => .error .transferShape

/-- The decoder. The event words depend on no parameter, the transfers on `REG_ADDR`. -/
def decode (p : Params) : Code → Except DecodeError Instr
  | .event e => decodeEvent e
  | .bus r => decodeBus p r

/-- The word an event is on the event stream (30_encoding R88). -/
def Event.word : Event → Word
  | .host w => w
  | .timer => 0x00000008#32
  | .interrupt => 0x00000009#32

/-- The event whose word is `w`: 0x00000008 comes from the timer input, 0x00000009 from the interrupt input, every other word from
the host port (30_encoding R88). -/
def eventOfWord (w : Word) : Event :=
  if w = 0x00000008#32 then .timer
  else if w = 0x00000009#32 then .interrupt
  else .host w

/-- The encoding of an instruction (30_encoding R89 to R91, R101). -/
def encode (p : Params) : Instr → Code
  | .req => .event (.host 0x00000001#32)
  | .setgain g => .event (.host (0x00000002#32 ||| (g.setWidth 32 <<< 4)))
  | .start => .event (.host 0x00000003#32)
  | .stop => .event (.host 0x00000004#32)
  | .setivl t => .event (.host (0x00000005#32 ||| (t.setWidth 32 <<< 8)))
  | .getivl => .event (.host 0x00000006#32)
  | .tick => .event .timer
  | .drdy => .event .interrupt
  | .wrreg r v => .bus (.write [regAddr p r, v])
  | .rdbyte r => .bus (.writeRead [regAddr p r] 1)
  | .rdblk r n => .bus (.writeRead [regAddr p r] n)

/-- What `nbits` bits numbered as the opcode table numbers them encode: 32 bits are a word of the event stream; 8 bits are the
address byte of RDBYTE; 16 bits are the address and value bytes of WRREG; any other whole number of bytes is RDBLK's address byte followed by the places of
the bytes read, so that 8 + 8n bits read n bytes. DESIGN CHOICE, log 3. -/
def codeOfTable (nbits w : Nat) : Option Code :=
  if nbits = 32 then some (.event (eventOfWord (BitVec.ofNat 32 w)))
  else if nbits = 16 then some (.bus (.write [BitVec.ofNat 8 w, BitVec.ofNat 8 (w / 256)]))
  else if nbits = 8 then some (.bus (.writeRead [BitVec.ofNat 8 w] 1))
  else if nbits % 8 = 0 ∧ 16 < nbits then some (.bus (.writeRead [BitVec.ofNat 8 w] (nbits / 8 - 1)))
  else none

/-- The instruction the decoder reads from a row's bits, in the default instance. -/
def decodeTableWord (nbits w : Nat) : Option Instr :=
  match codeOfTable nbits w with
  | some c => (decode .default c).toOption
  | none => none

end Sys2Proof
end

