-- ==== Sys2Proof/Machine/State.lean ====
section
/-! DEFINITION. The state of the block: the register record of 10_state R20 to R25, and its interfaces as data: the event stream and
the bus answers it is given, the outputs it has given. -/

namespace Sys2Proof.Machine

/-- The controller's state, `ctrl_state` (10_state R21; the spec allows the three-constructor type). -/
inductive CtrlState where
  | idle | awaitingSingle | continuous
  deriving DecidableEq, Repr, Inhabited

/-- The register record: "exactly one mutable piece of shared state", plus the consumer-set configuration (10_state R20). -/
@[ext]
structure Regs where
  /-- `ctrl_state`, R21. -/
  ctrlState : CtrlState
  /-- `armed`, R22. -/
  armed : Bool
  /-- `interval`, R23. -/
  interval : Interval
  /-- `gain_set`, R24. -/
  gainSet : Bool
  /-- `gain`, R24. -/
  gain : GainIndex
  /-- `last_mode_valid`, R25. -/
  lastModeValid : Bool
  /-- `last_mode`, R25. -/
  lastMode : Mode
  deriving DecidableEq, Repr

/-- The status of a step (30_encoding R86); code 3 is reserved and has no constructor (U4). -/
inductive Status where
  | ok | errTransport | errIllegal
  deriving DecidableEq, Repr, Inhabited

/-- The origin an event status names (30_encoding R98). -/
inductive Origin where
  | tick | drdy
  deriving DecidableEq, Repr, Inhabited

/-- Who started a step, and so who is told its outcome (00_scope R15 "Initiator"); `caller` is whoever calls the register-protocol
unit directly (40_register_protocol R120). -/
inductive Initiator where
  | host
  | event (o : Origin)
  | caller
  deriving DecidableEq, Repr

/-- Three signed readings, `RawSample` (10_state R27). -/
structure RawSample where
  x : Int
  y : Int
  z : Int
  deriving DecidableEq, Repr

/-- A heading in degrees with the three readings, `Sample` (10_state R27). -/
structure Sample where
  angle : F64
  x : Int
  y : Int
  z : Int
  deriving DecidableEq, Repr

/-- What a notification carries (30_encoding R96). -/
structure Notification where
  nAngle : BitVec 64
  nX : BitVec 16
  nY : BitVec 16
  nZ : BitVec 16
  deriving DecidableEq, Repr

/-- What the block emits (10_state R32). -/
inductive Output where
  /-- A completed bus transfer with its answer. -/
  | bus (request : BusRequest) (result : BusResult)
  /-- `TimerStart(t)`. -/
  | timerStart (t : Interval)
  /-- `TimerStop()`. -/
  | timerStop
  /-- `Notify(s)`. -/
  | notify (n : Notification)
  /-- `Respond(status, data)`, with the bus's error attached where there is one (60_exceptions R241). -/
  | respond (status : Status) (data : Word) (info : Option ErrInfo)
  /-- `EventStatus(origin, status)`, with the bus's error attached where there is one. -/
  | eventStatus (origin : Origin) (status : Status) (info : Option ErrInfo)
  /-- What the register-protocol unit returns to a direct caller (40_register_protocol R120). -/
  | unitReturn (result : BusResult)
  deriving DecidableEq, Repr

@[ext]
structure State where
  /-- The parameters the machine is built with (00_scope R9). DESIGN CHOICE, log 8: the model's own field; no step changes it. -/
  params : Params
  /-- The register record (10_state R20). -/
  regs : Regs
  /-- The event stream, oldest first (30_encoding R88). -/
  events : List Event
  /-- The register-protocol unit's own input (40_register_protocol R120). DESIGN CHOICE, log 3: empty in the block's own runs. -/
  unitPort : Option BusRequest
  /-- The environment's script of bus answers, next first (20_memory R57). DESIGN CHOICE, log 4. -/
  busAnswers : List BusAnswer
  /-- The model's own counter of completed transfers, which the free values are applied to. DESIGN CHOICE, log 4. -/
  transfers : Nat
  /-- The observable trace, oldest first (10_state R32). DESIGN CHOICE, log 5. -/
  trace : List Output
  deriving DecidableEq, Repr

/-- Why the machine stops. -/
inductive Fault where
  /-- A bus transfer never completes, so the step is stuck and no step follows it (60_exceptions R260). Raised by the operations that
  perform a transfer. Safe: the spec keeps it as a stuck step. -/
  | busHang
  deriving DecidableEq, Repr

/-- Why the machine gives no meaning. -/
inductive Refusal where
  /-- An instruction that has no meaning yet; no arm of exec answers it. -/
  | notModelled (mnemonic : String)
  /-- RDBLK with n outside 1 to `BLOCK_MAX`; raised by RDBLK. Safe: "n outside 1 … 255 is never issued and a model may refuse it"
  (40_register_protocol R122). -/
  | blockLength (n : Nat)
  /-- The register-protocol unit's input holds bytes that encode none of its operations; raised by the step. Safe: the unit takes
  register names only (40_register_protocol R120, R126), and the controller never leaves anything there. -/
  | unknownTransfer (e : DecodeError)
  deriving DecidableEq, Repr

/-- The register record after reset (10_state R33). -/
def Regs.reset : Regs where
  ctrlState := .idle
  armed := false
  interval := Config.intervalReset
  gainSet := false
  gain := Config.gainReset
  lastModeValid := false
  lastMode := Config.lastModeReset

/-- The machine after reset, built with the parameters `p`: the record of 10_state R33, an empty event stream (70_reset_and_hazards
R270), nothing emitted (R271). -/
def State.resetWith (p : Params) : State where
  params := p
  regs := Regs.reset
  events := []
  unitPort := none
  busAnswers := []
  transfers := 0
  trace := []

/-- The machine after reset, in the spec's concrete instance (00_scope R9). -/
def State.reset : State := State.resetWith .default

end Sys2Proof.Machine
end

