-- ==== Sys2Proof/Machine/Flags.lean ====
section
/-! DEFINITION. The codes the block's outputs and registers are numbered with. The block has no flag register; what plays the role of
flags is the status code of a step (10_state R26, R29). -/

namespace Sys2Proof.Machine

/-- The 2-bit status code (30_encoding R86, 60_exceptions R241). -/
def statusCode : Status → BitVec 2
  | .ok => 0#2
  | .errTransport => 1#2
  | .errIllegal => 2#2

/-- The 1-bit origin of an event status (30_encoding R98). -/
def originCode : Origin → BitVec 1
  | .tick => 0#1
  | .drdy => 1#1

/-- The 2-bit encoding of `ctrl_state` (10_state R21). -/
def ctrlCode : CtrlState → BitVec 2
  | .idle => 0#2
  | .awaitingSingle => 1#2
  | .continuous => 2#2

/-- The 2-bit mode index held by `last_mode` (10_state R25). -/
def modeIndex : Mode → BitVec 2
  | .continuous => 0#2
  | .singleShot => 1#2
  | .idle => 2#2
  | .sleep => 3#2

/-- The data word of a GETIVL response, `zext_32(interval)` (30_encoding R87). -/
def intervalData (t : Interval) : Word := t.setWidth 32

end Sys2Proof.Machine
end

