-- ==== Sys2Proof/Machine/Ops.lean ====
section
/-! DEFINITION. The operations the meanings share: emitting an output, one bus transfer, telling the initiator how a step ended,
raising an error, and the unit's three transfers (00_scope R13, 40_register_protocol). -/

namespace Sys2Proof.Machine

/-- Append one output to the trace (10_state R32). -/
def State.emit (o : Output) (s : State) : State := { s with trace := s.trace ++ [o] }

/-- Replace the register record. -/
def State.setRegs (r : Regs) (s : State) : State := { s with regs := r }

/-- The environment puts one event at the end of the event stream (60_exceptions R248). No step does this. -/
def State.deliver (e : Event) (s : State) : State := { s with events := s.events ++ [e] }

/-! ### Telling the initiator -/

/-- `Respond(status, data)` or `EventStatus(origin, status)` (00_scope R13): the outcome of a step that completed its work. -/
def State.finish (who : Initiator) (result : BusResult) (s : State) : State :=
  match who with
  | .host => s.emit (.respond .ok 0#32 none)
  | .event o => s.emit (.eventStatus o .ok none)
  | .caller => s.emit (.unitReturn result)

/-- `raise TransportError(e)` (00_scope R13, 60_exceptions R242, R251): the one exception the block takes. It saves nothing and changes
no register; the initiator is told the status and the bus's own error. There is no return from it (R252). -/
def State.raiseTransport (who : Initiator) (e : ErrInfo) (s : State) : State :=
  match who with
  | .host => s.emit (.respond .errTransport 0#32 (some e))
  | .event o => s.emit (.eventStatus o .errTransport (some e))
  | .caller => s.emit (.unitReturn (.err e))

/-- ILLEGAL (43_sampling_controller R207): a host word that is not legal has no effect but its response. -/
def State.illegal (s : State) : State := s.emit (.respond .errIllegal 0#32 none)

/-! ### One bus transfer -/

/-- How many bytes a transfer reads. -/
def readCount : BusRequest → Nat
  | .write _ => 0
  | .writeRead _ n => n

/-- The answer as the block sees it: one of other than `n` bytes is an error (40_register_protocol R122, D26). -/
def fitLength (n : Nat) (wrong : ErrInfo) : BusResult → BusResult
  | .ok bytes => if bytes.length = n then .ok bytes else .err wrong
  | .err e => .err e

/-- What the bus answers to the next transfer, which reads `n` bytes; `none` if that transfer never completes (60_exceptions R260). -/
def State.busReply (n : Nat) (s : State) : Option BusResult :=
  match s.busAnswers with
  | [] => some (fitLength n (Config.lengthError s.transfers) (Config.busResult s.transfers))
  | .done r :: _ => some (fitLength n (Config.lengthError s.transfers) r)
  | .never :: _ => none

/-- The state after a transfer completed with `r`: its answer is used up and the transfer is on the trace. -/
def State.transferred (request : BusRequest) (r : BusResult) (s : State) : State :=
  { s with busAnswers := s.busAnswers.tail, transfers := s.transfers + 1, trace := s.trace ++ [.bus request r] }

/-- One atomic bus transfer (20_memory R58), then the rest of the step: on ERR the error is raised to the initiator, on OK the step goes
on with the bytes read. No retry, no timeout (40_register_protocol R124). -/
def withTransfer (who : Initiator) (request : BusRequest) (s : State) (go : List Byte → State → State) :
    Host.Outcome State Fault Refusal :=
  match s.busReply (readCount request) with
  | none => .fault .busHang
  | some r =>
    .next (match r with
      | .ok bytes => go bytes (s.transferred request r)
      | .err e => (s.transferred request r).raiseTransport who e)

/-! ### The register-protocol unit -/

/-- WRREG's transfer (40_register_protocol R123). -/
def wrreg (who : Initiator) (reg : RegName) (value : Byte) (s : State) (go : State → State) :
    Host.Outcome State Fault Refusal :=
  withTransfer who (.write [regAddr s.params reg, value]) s (fun _ => go)

/-- RDBYTE's transfer (40_register_protocol R121). -/
def rdbyte (who : Initiator) (reg : RegName) (s : State) (go : Byte → State → State) :
    Host.Outcome State Fault Refusal :=
  withTransfer who (.writeRead [regAddr s.params reg] 1) s (fun bytes => go (bytes.getD 0 0))

/-- RDBLK's transfer (40_register_protocol R122). -/
def rdblk (who : Initiator) (reg : RegName) (n : Nat) (s : State) (go : List Byte → State → State) :
    Host.Outcome State Fault Refusal :=
  withTransfer who (.writeRead [regAddr s.params reg] n) s go

/-! ### The request sub-operation -/

/-- What a successful mode write leaves in the registers (43_sampling_controller R191). -/
def Regs.requested (r : Regs) : Regs :=
  { r with
    lastModeValid := true
    lastMode := .singleShot
    ctrlState := if r.ctrlState = .idle then .awaitingSingle else r.ctrlState }

/-- `request()` (43_sampling_controller R191), shared by REQ and TICK, and the report of its outcome. -/
def request (who : Initiator) (s : State) : Host.Outcome State Fault Refusal :=
  wrreg who .mode (modeCode s.params .singleShot) s
    (fun s' => (s'.setRegs s'.regs.requested).finish who (.ok []))

/-! ### Notification -/

/-- The encoding of a sample on the notification port (30_encoding R96). -/
def Sample.encode (s : Sample) : Notification where
  nAngle := s.angle.bits
  nX := BitVec.ofInt 16 s.x
  nY := BitVec.ofInt 16 s.y
  nZ := BitVec.ofInt 16 s.z

/-- `Notify(s)`, NOTIFY (43_sampling_controller R212): emitted inside the step, kept nowhere. -/
def State.notify (m : Sample) (s : State) : State := s.emit (.notify m.encode)

end Sys2Proof.Machine
end

