-- ==== Sys2Proof/Machine/Commands.lean ====
section
/-! DEFINITION. The six host commands (43_sampling_controller section 2). Each is one atomic step. -/

namespace Sys2Proof.Machine

/-- REQ (43_sampling_controller R192). -/
def execReq (s : State) : Host.Outcome State Fault Refusal := request .host s

/-- SETGAIN g (43_sampling_controller R195). -/
def execSetgain (g : GainIndex) (s : State) : Host.Outcome State Fault Refusal :=
  wrreg .host s.params.gainReg (gainCode s.params g) s
    (fun s' => (s'.setRegs { s'.regs with gainSet := true, gain := g }).finish .host (.ok []))

/-- START (43_sampling_controller R198). -/
def execStart (s : State) : Host.Outcome State Fault Refusal :=
  .next (((s.setRegs { s.regs with ctrlState := .continuous, armed := true }).emit
    (.timerStart s.regs.interval)).finish .host (.ok []))

/-- `TimerStop()` where the timer is armed (43_sampling_controller R201, R203). -/
def State.stopIfArmed (s : State) : State := if s.regs.armed then s.emit .timerStop else s

/-- STOP (43_sampling_controller R201). -/
def execStop (s : State) : Host.Outcome State Fault Refusal :=
  .next ((s.stopIfArmed.setRegs { s.regs with armed := false, ctrlState := .idle }).finish .host (.ok []))

/-- SETIVL t (43_sampling_controller R203). -/
def execSetivl (t : Interval) (s : State) : Host.Outcome State Fault Refusal :=
  let stored := s.stopIfArmed.setRegs { s.regs with interval := t }
  .next ((if s.regs.armed then stored.emit (.timerStart t) else stored).finish .host (.ok []))

/-- GETIVL (43_sampling_controller R206). -/
def execGetivl (s : State) : Host.Outcome State Fault Refusal :=
  .next (s.emit (.respond .ok (intervalData s.regs.interval) none))

end Sys2Proof.Machine
end

