-- ==== Sys2Proof/Machine/Samples.lean ====
section
/-! DEFINITION. The sample decoder (41_sample_decoder): DECODE_AXIS, DECODE and VALIDATE. It holds no state. -/

namespace Sys2Proof.Machine

/-- `raw16 = (high << 8) | low` (20_memory R53). -/
def raw16 (high low : Byte) : BitVec 16 := (high.setWidth 16 <<< 8) ||| low.setWidth 16

/-- DECODE_AXIS (41_sample_decoder R141): the device's sign rule, which is not two's complement and must not be corrected. -/
def decodeAxis (high low : Byte) : Int :=
  let raw := raw16 high low
  (if raw.getLsbD 15 then -32767 else 0) + ((raw &&& 0x7FFF#16).toNat : Int)

/-- DECODE (41_sample_decoder R142): bytes 0-1 are X, 2-3 are Z, 4-5 are Y. -/
def decodeBlock (b : List Byte) : RawSample where
  x := decodeAxis (b.getD 0 0) (b.getD 1 0)
  z := decodeAxis (b.getD 2 0) (b.getD 3 0)
  y := decodeAxis (b.getD 4 0) (b.getD 5 0)

/-- VALIDATE (41_sample_decoder R145): no axis is the sentinel. -/
def validate (r : RawSample) : Bool :=
  !(r.x == Config.sentinel || r.y == Config.sentinel || r.z == Config.sentinel)

end Sys2Proof.Machine
end

