-- ==== Sys2Proof/Machine/Events.lean ====
section
/-! DEFINITION. The two environment events (43_sampling_controller section 3). Each is one atomic step. -/

namespace Sys2Proof.Machine

/-- TICK (43_sampling_controller R208). -/
def execTick (s : State) : Host.Outcome State Fault Refusal :=
  if s.regs.ctrlState = .continuous then request (.event .tick) s
  else .next ((s.emit .timerStop).finish (.event .tick) (.ok []))

/-- AWAITING_SINGLE returns to IDLE (43_sampling_controller R211). -/
def Regs.acquired (r : Regs) : Regs :=
  { r with ctrlState := if r.ctrlState = .awaitingSingle then .idle else r.ctrlState }

/-- The Sample of a valid reading (41_sample_decoder R147). -/
def sampleOf (c : Atanx) (r : RawSample) : Sample where
  angle := angle c r.x r.y
  x := r.x
  y := r.y
  z := r.z

/-- Decode a block, and notify if it is valid (43_sampling_controller R211). -/
def State.deliverBlock (bytes : List Byte) (s : State) : State :=
  if validate (decodeBlock bytes) then s.notify (sampleOf s.params.atanx (decodeBlock bytes)) else s

/-- DRDY (43_sampling_controller R211): in every controller state (R210), whether or not a request is outstanding. -/
def execDrdy (s : State) : Host.Outcome State Fault Refusal :=
  rdblk (.event .drdy) .dataXMsb Config.blockLen s
    (fun bytes s' => ((s'.setRegs s'.regs.acquired).deliverBlock bytes).finish (.event .drdy) (.ok []))

end Sys2Proof.Machine
end

