-- ==== Sys2Proof/Machine/Protocol.lean ====
section
/-! DEFINITION. The register-protocol unit's operations run by themselves (40_register_protocol R120): one transfer each, and the
outcome returned to the caller. -/

namespace Sys2Proof.Machine

/-- WRREG(reg, value) (40_register_protocol R123). -/
def execWrreg (reg : RegName) (value : Byte) (s : State) : Host.Outcome State Fault Refusal :=
  wrreg .caller reg value s (State.finish .caller (.ok []))

/-- RDBYTE(reg) (40_register_protocol R121). -/
def execRdbyte (reg : RegName) (s : State) : Host.Outcome State Fault Refusal :=
  rdbyte .caller reg s (fun b => State.finish .caller (.ok [b]))

/-- RDBLK(reg, n) (40_register_protocol R122); n outside 1 to `BLOCK_MAX` is refused, as the rule lets a model do. -/
def execRdblk (reg : RegName) (n : Nat) (s : State) : Host.Outcome State Fault Refusal :=
  if 1 ≤ n ∧ n ≤ Config.blockMax then rdblk .caller reg n s (fun bytes => State.finish .caller (.ok bytes))
  else .refused (.blockLength n)

end Sys2Proof.Machine
end

