-- ==== Sys2Proof/Machine/Dispatch.lean ====
section
/-! DEFINITION. The one match from instructions to their meanings. -/

namespace Sys2Proof.Machine

def exec (i : Instr) (s : State) : Host.Outcome State Fault Refusal :=
  match i with
  | .req => Sys2Proof.Machine.execReq s
  | .setgain g => Sys2Proof.Machine.execSetgain g s
  | .start => Sys2Proof.Machine.execStart s
  | .stop => Sys2Proof.Machine.execStop s
  | .setivl t => Sys2Proof.Machine.execSetivl t s
  | .getivl => Sys2Proof.Machine.execGetivl s
  | .tick => Sys2Proof.Machine.execTick s
  | .drdy => Sys2Proof.Machine.execDrdy s
  | .wrreg reg value => Sys2Proof.Machine.execWrreg reg value s
  | .rdbyte reg => Sys2Proof.Machine.execRdbyte reg s
  | .rdblk reg n => Sys2Proof.Machine.execRdblk reg n s

end Sys2Proof.Machine
end

