-- ==== Sys2Proof/Machine/Fetch.lean ====
section
/-! DEFINITION. Where a step takes its work from, and what it runs for it (43_sampling_controller R190). -/

namespace Sys2Proof.Machine

/-- What the next step works on, taken off its place: the register-protocol unit's own input first (log 3), else the next event of
the event stream; `none` if there is neither. -/
def State.takeWork (s : State) : Option (Code × State) :=
  match s.unitPort with
  | some r => some (.bus r, { s with unitPort := none })
  | none =>
    match s.events with
    | [] => none
    | e :: rest => some (.event e, { s with events := rest })

/-- The step for one piece of work: a decoded instruction runs; a host word that is not legal is answered by ILLEGAL
(43_sampling_controller R207); bytes on the unit's own input that encode none of its operations are refused. -/
def runCode (c : Code) (s : State) : Host.Outcome State Fault Refusal :=
  match decode s.params c with
  | .ok i => exec i s
  | .error why =>
    match c with
    | .event _ => .next s.illegal
    | .bus _ => .refused (.unknownTransfer why)

/-- The state with `c` put where the next step takes its work from: an event at the front of the event stream, or a transfer on the
unit's own input. -/
def State.placeWork (c : Code) (s : State) : State :=
  match c with
  | .event e => { s with unitPort := none, events := e :: s.events }
  | .bus r => { s with unitPort := some r }

end Sys2Proof.Machine
end

