-- ==== Sys2Proof/Machine/Step.lean ====
section
/-! DEFINITION. One step of the block (43_sampling_controller R190). -/

namespace Sys2Proof.Machine

/-- One atomic step: the next piece of work is taken and run; with none, the block waits (70_reset_and_hazards R272, log 11). -/
def step (s : State) : Host.Outcome State Fault Refusal :=
  match s.takeWork with
  | some (c, s') => runCode c s'
  | none => .next s

/-- `s` with what `nbits` bits `w` of the opcode table encode placed where the next step takes its work from. -/
def State.withFetchWord (s : State) (nbits w : Nat) : State :=
  match codeOfTable nbits w with
  | some c => s.placeWork c
  | none => s

end Sys2Proof.Machine
end

