-- ==== Sys2Proof/Safety.lean ====
section
/-! DEFINITION. What a safe run is, and the words the statements about the machine are made of: the invariants, the outputs a step
adds, and counts over outputs. -/

namespace Sys2Proof.Machine

/-- A state from which the machine never stops: no number of steps ends in a fault or a refusal. -/
def State.Safe (s : State) : Prop := ∀ n, ∃ t, core.run n s = .next t

/-- The invariant of the register record: `armed` exactly in CONTINUOUS (10_state R22), and the last mode requested is SingleShot
once it is valid (R25). -/
def State.RegInv (s : State) : Prop :=
  (s.regs.armed = true ↔ s.regs.ctrlState = .continuous) ∧
  (s.regs.lastModeValid = true → s.regs.lastMode = .singleShot)

/-- The transfers the acquisition controller issues, the complete list of 40_register_protocol R127. That none of them
accesses CONFIG_A, STATUS or an identification register holds where `GAIN_REG` and the address map name none of them (log 15). -/
def ControllerTransfer (p : Params) (r : BusRequest) : Prop :=
  r = .write [regAddr p .mode, modeCode p .singleShot] ∨
  (∃ g, r = .write [regAddr p p.gainReg, gainCode p g]) ∨
  r = .writeRead [regAddr p .dataXMsb] 6

/-- A raw sample the decoder can give and the validation lets through (41_sample_decoder R141, R145). -/
def RawSample.Valid (r : RawSample) : Prop :=
  (-32767 ≤ r.x ∧ r.x ≤ 32767 ∧ r.x ≠ -4096) ∧
  (-32767 ≤ r.y ∧ r.y ≤ 32767 ∧ r.y ≠ -4096) ∧
  (-32767 ≤ r.z ∧ r.z ≤ 32767 ∧ r.z ≠ -4096)

/-- What the block may emit: a transfer of R127's list; a notification of a valid sample (10_state R34); timer commands; and the
statuses of 30_encoding R86 and R87, with a bus error exactly where the status is ERR_TRANSPORT. -/
def Output.Allowed (p : Params) : Output → Prop
  | .bus request _ => ControllerTransfer p request
  | .timerStart _ => True
  | .timerStop => True
  | .notify n => ∃ r : RawSample, r.Valid ∧ n = (sampleOf p.atanx r).encode
  | .respond status data info => (status ≠ .ok → data = 0#32) ∧ (info.isSome = true ↔ status = .errTransport)
  | .eventStatus _ status info => status ≠ .errIllegal ∧ (info.isSome = true ↔ status = .errTransport)
  | .unitReturn _ => False

/-- The invariant of the block's own runs: nothing stands on the register-protocol unit's own input, and every output is one the
block may emit. -/
def State.TraceInv (s : State) : Prop := s.unitPort = none ∧ ∀ o ∈ s.trace, o.Allowed s.params

/-- The outputs of a step from `s` to `t`. -/
def newOutputs (s t : State) : List Output := t.trace.drop s.trace.length

/-- The transfer an output records, if it is one. -/
def Output.transfer? : Output → Option BusRequest
  | .bus request _ => some request
  | .timerStart _ => none
  | .timerStop => none
  | .notify _ => none
  | .respond _ _ _ => none
  | .eventStatus _ _ _ => none
  | .unitReturn _ => none

/-- Whether an output is a timer command. -/
def Output.isTimer : Output → Bool
  | .timerStart _ => true
  | .timerStop => true
  | .bus _ _ => false
  | .notify _ => false
  | .respond _ _ _ => false
  | .eventStatus _ _ _ => false
  | .unitReturn _ => false

/-- Whether an output records a failed transfer. -/
def Output.isFailure : Output → Bool
  | .bus _ (.err _) => true
  | .bus _ (.ok _) => false
  | .timerStart _ => false
  | .timerStop => false
  | .notify _ => false
  | .respond _ _ _ => false
  | .eventStatus _ _ _ => false
  | .unitReturn _ => false

/-- Whether an output is a notification. -/
def Output.isNotify : Output → Bool
  | .notify _ => true
  | .bus _ _ => false
  | .timerStart _ => false
  | .timerStop => false
  | .respond _ _ _ => false
  | .eventStatus _ _ _ => false
  | .unitReturn _ => false

/-- The status an output reports, if it reports one. -/
def Output.status? : Output → Option Status
  | .respond status _ _ => some status
  | .eventStatus _ status _ => some status
  | .bus _ _ => none
  | .timerStart _ => none
  | .timerStop => none
  | .notify _ => none
  | .unitReturn _ => none

/-- The transfers among some outputs, in order. -/
def transfersOf (out : List Output) : List BusRequest := out.filterMap Output.transfer?

/-- The transfers an event of the stream asks for itself, whatever state the block is in: a REQ its mode write, a SETGAIN its gain
write, a DRDY its block read; a TICK none. -/
def ownTransfers (p : Params) (e : Event) : List BusRequest :=
  match decodeEvent e with
  | .ok .req => [.write [regAddr p .mode, modeCode p .singleShot]]
  | .ok (.setgain g) => [.write [regAddr p p.gainReg, gainCode p g]]
  | .ok .drdy => [.writeRead [regAddr p .dataXMsb] 6]
  | .ok .start => []
  | .ok .stop => []
  | .ok (.setivl _) => []
  | .ok .getivl => []
  | .ok .tick => []
  | .ok (.wrreg _ _) => []
  | .ok (.rdbyte _) => []
  | .ok (.rdblk _ _) => []
  | .error _ => []

/-- What a sensor whose registers hold `content` answers to a read of n bytes from the address `a`: "device auto-increments the internal
register pointer" (20_memory R59, 30_encoding R91). -/
def readFrom (content : Byte → Byte) (a : Byte) : Nat → List Byte
  | 0 => []
  | n + 1 => content a :: readFrom content (a + 1) n

/-- The word of a row of the opcode table with format CMD: `w` under `mask` is `pattern`. -/
def matchesRow (mask pattern w : Word) : Prop := w &&& mask = pattern

/-- A legal host word: some row of format CMD matches it (30_encoding R85, 43_sampling_controller R207). -/
def LegalWord (w : Word) : Prop :=
  matchesRow 0xFFFFFFFF#32 0x00000001#32 w ∨ matchesRow 0xFFFFFF8F#32 0x00000002#32 w ∨
  matchesRow 0xFFFFFFFF#32 0x00000003#32 w ∨ matchesRow 0xFFFFFFFF#32 0x00000004#32 w ∨
  matchesRow 0x000000FF#32 0x00000005#32 w ∨ matchesRow 0xFFFFFFFF#32 0x00000006#32 w

/-- Two states that differ at most in `gain_set`, `gain`, `last_mode_valid` and `last_mode`, the registers no rule reads
(10_state R24, R25). -/
def SameButHeld (s t : State) : Prop :=
  t = { s with regs := { s.regs with
    gainSet := t.regs.gainSet, gain := t.regs.gain,
    lastModeValid := t.regs.lastModeValid, lastMode := t.regs.lastMode } }

/-- The next transfer never completes. -/
def State.Hung (s : State) : Prop := s.busAnswers.head? = some .never

/-- The magnitude from which a rounded result is an infinity: halfway between the largest finite number and 2^1024. -/
def overflowBound : Rat := 2 ^ 1024 - 2 ^ 970

/-- `r` is the exact value `q` rounded once to binary64, to nearest with ties to even (00_scope R11): below the overflow bound, a
finite number no farther from `q` than any other, with an even fraction where another is as near; from the bound on, the infinity of `q`'s sign. -/
def RoundsTo (q : Rat) (r : F64) : Prop :=
  (|q| < overflowBound → r.isFinite = true ∧
    ∀ z : F64, z.isFinite = true → z.toRat ≠ r.toRat →
      |q - r.toRat| < |q - z.toRat| ∨ (|q - r.toRat| = |q - z.toRat| ∧ r.bits.toNat % 2 = 0)) ∧
  (overflowBound ≤ |q| → r = F64.ofMagnitude (decide (q < 0)) F64.infMagnitude)

end Sys2Proof.Machine

namespace Sys2Proof

/-- Coefficients ATANX gives a number at 0 for: each is finite, Q0 is not 0, and P0 / Q0 is finite. DEDUCED, log 14: this is the "finite
coefficient set" of 42_angle_estimator R165 and R169. -/
def Atanx.Finite (c : Atanx) : Prop :=
  (∀ p ∈ [c.p0, c.p1, c.p2, c.p3, c.p4, c.q0, c.q1, c.q2, c.q3, c.q4], p.isFinite = true) ∧
  F64.eq c.q0 Machine.zeroF = false ∧ (F64.div c.p0 c.q0).isFinite = true

end Sys2Proof
end

