-- ==== Sys2Proof/Certificates/Slice0/Obligations.lean ====
section
/-! DEFINITION. The statements about the block, for the provers. Each docstring names the rules it rests on. -/

open Sys2Proof Sys2Proof.Machine

/-! ### Reset, invariants, the step -/

/-- 10_state R33: the values after reset; no transfer, timer command or other output has been made. (`Config.intervalReset` is the
spec's open parameter INTERVAL_RESET; `gain` and `last_mode` are unspecified there and not stated here.) The other parameters (00_scope R9)
are given with the machine and nothing else of the reset state depends on them. -/
def Obligations.ResetRecordAsSpecified : Prop :=
  State.reset.regs.ctrlState = .idle ∧ ctrlCode State.reset.regs.ctrlState = 0#2 ∧
  State.reset.regs.armed = false ∧
  State.reset.regs.interval = Config.intervalReset ∧
  State.reset.regs.gainSet = false ∧
  State.reset.regs.lastModeValid = false ∧
  State.reset.events = [] ∧
  State.reset.trace = [] ∧
  (∀ p : Params, State.resetWith p = { State.reset with params := p })

/-- The two invariants hold at reset (10_state R33, R34), whatever the parameters. -/
def Obligations.ResetMeetsInvariants : Prop :=
  ∀ p : Params, (State.resetWith p).RegInv ∧ (State.resetWith p).TraceInv

/-- 10_state R22, R25: from any state whose register record meets the invariant, a step gives one that does. -/
def Obligations.StepKeepsRegInv : Prop :=
  ∀ s t : State, s.RegInv → step s = .next t → t.RegInv

/-- 40_register_protocol R127, 30_encoding R86, R87, R99: every output stays one the block may emit. -/
def Obligations.StepKeepsTraceInv : Prop :=
  ∀ s t : State, s.TraceInv → step s = .next t → t.TraceInv

/-- 10_state R34, (a) to (e), of every state reached from reset with any parameters, under any events and any bus answers. -/
def Obligations.ReachableStatesMeetInvariants : Prop :=
  ∀ (p : Params) (events : List Event) (answers : List BusAnswer) (n : Nat) (t : State),
    core.run n { State.resetWith p with events := events, busAnswers := answers } = .next t →
    -- (a) ctrl_state is IDLE, AWAITING_SINGLE or CONTINUOUS
    (ctrlCode t.regs.ctrlState = 0#2 ∨ ctrlCode t.regs.ctrlState = 1#2 ∨ ctrlCode t.regs.ctrlState = 2#2) ∧
    -- (b) armed = 1 exactly in CONTINUOUS
    (t.regs.armed = true ↔ t.regs.ctrlState = .continuous) ∧
    -- (c) only a sample with no sentinel is notified
    (∀ m, .notify m ∈ t.trace → ∃ r : RawSample, r.Valid ∧ m = (sampleOf p.atanx r).encode) ∧
    -- (d) every address put on the bus is an entry of REG_ADDR
    (∀ q r, .bus q r ∈ t.trace → ∃ reg : RegName,
      (∃ v, q = .write [regAddr p reg, v]) ∨ ∃ k, q = .writeRead [regAddr p reg] k) ∧
    -- (e) a step makes at most one transfer
    (∀ u, step t = .next u → (transfersOf u.trace).length ≤ (transfersOf t.trace).length + 1)

/-- 43_sampling_controller R190: a step takes the next event and runs exactly the instruction it decodes to, on the state without
that event; a host word that does not decode is answered by ILLEGAL. A transfer on the unit's own input (log 3) is run the same way. -/
def Obligations.StepRunsDecodedInstruction : Prop :=
  (∀ (s : State) (e : Event) (rest : List Event) (i : Instr),
    s.unitPort = none → s.events = e :: rest → decodeEvent e = .ok i → step s = exec i { s with events := rest }) ∧
  (∀ (s : State) (e : Event) (rest : List Event) (why : DecodeError),
    s.unitPort = none → s.events = e :: rest → decodeEvent e = .error why →
    step s = .next (State.illegal { s with events := rest })) ∧
  (∀ (s : State) (q : BusRequest) (i : Instr),
    s.unitPort = some q → decodeBus s.params q = .ok i → step s = exec i { s with unitPort := none }) ∧
  decodeEvent .timer = .ok .tick ∧ decodeEvent .interrupt = .ok .drdy

/-- 43_sampling_controller R190, 30_encoding R82, R83, R84, R85: which words of the host port decode, and to what: exactly those
the CMD rows of the opcode table match, with the operand fields in their places. -/
def Obligations.HostWordsDecodeAsTheTable : Prop :=
  ∀ w : Word,
    (decodeHost w = .ok .req ↔ w = 0x00000001#32) ∧
    (∀ g, decodeHost w = .ok (.setgain g) ↔ w &&& 0xFFFFFF8F#32 = 0x00000002#32 ∧ g.toNat = w.toNat / 16 % 8) ∧
    (decodeHost w = .ok .start ↔ w = 0x00000003#32) ∧
    (decodeHost w = .ok .stop ↔ w = 0x00000004#32) ∧
    (∀ t, decodeHost w = .ok (.setivl t) ↔ w &&& 0x000000FF#32 = 0x00000005#32 ∧ t.toNat = w.toNat / 256) ∧
    (decodeHost w = .ok .getivl ↔ w = 0x00000006#32) ∧
    ((∃ i, decodeHost w = .ok i) ↔ LegalWord w)

/-- 60_exceptions R247 and 43_sampling_controller R207: an illegal host word is answered ERR_ILLEGAL with no other effect, and
ERR_ILLEGAL answers nothing else. -/
def Obligations.IllegalWordsAreOnlyAnswered : Prop :=
  (∀ (s : State) (w : Word) (rest : List Event),
    s.unitPort = none → s.events = .host w :: rest → ¬ LegalWord w →
    step s = .next { s with events := rest, trace := s.trace ++ [.respond .errIllegal 0#32 none] }) ∧
  (∀ (s t : State) (d : Word) (info : Option ErrInfo),
    step s = .next t → .respond .errIllegal d info ∈ newOutputs s t →
    ∃ w rest, s.unitPort = none ∧ s.events = .host w :: rest ∧ ¬ LegalWord w)

/-- 30_encoding R81 to R95: decoding an instruction's encoding gives, for every well-formed instruction, every operand and every value of
the parameters, an instruction with the same encoding that does the same in every state with those parameters; and where no two register names
share an address, the instruction itself, but for RDBLK of one byte, whose transfer is RDBYTE's (log 3, log 8). -/
def Obligations.EncodeThenDecode : Prop :=
  ∀ (p : Params) (i : Instr), i.wellFormed = true →
    (∃ j, decode p (encode p i) = .ok j ∧ encode p j = encode p i ∧ ∀ s : State, s.params = p → exec j s = exec i s) ∧
    (p.Distinct → (∀ r, i ≠ .rdblk r 1) → decode p (encode p i) = .ok i)

/-- 30_encoding R85, R99, R100: a code that decodes is the encoding of what it decodes to, so no reserved bit is ignored and no two codes
mean the same; and what decodes is well formed. -/
def Obligations.DecodeThenEncode : Prop :=
  ∀ (p : Params) (c : Code) (i : Instr), decode p c = .ok i → encode p i = c ∧ i.wellFormed = true

/-- 30_encoding R101 and 95_test_vectors V1: words written out from the encodings decode to their instructions (sanity). That 16 bits are
read as WRREG's address and value, through the default REG_ADDR, is the model's choice (DESIGN CHOICE, log 3; log 8), not the spec's. -/
def Obligations.SampleWordsDecode : Prop :=
  decodeTableWord 32 0x00000001 = some .req ∧
  decodeTableWord 32 0x00000052 = some (.setgain 5#3) ∧
  decodeTableWord 32 0x12345605 = some (.setivl 0x123456#24) ∧
  decodeTableWord 32 0x00000006 = some .getivl ∧
  decodeTableWord 32 0x00000008 = some .tick ∧
  decodeTableWord 32 0x00000009 = some .drdy ∧
  decodeTableWord 16 0x00000102 = some (.wrreg .mode 0x01#8) ∧
  decodeTableWord 32 0x00000085 = none

/-! ### The host commands: result, completion and frame in one equation -/

/-- 43_sampling_controller R192 with R191: REQ makes one mode write; if it succeeds the registers are those of R191 and the response is
OK, if it fails no register changes and the response is ERR_TRANSPORT with the bus's error. Everything else of the state is as the equation says. -/
def Obligations.ReqWritesModeThenAwaits : Prop :=
  (∀ p, encode p .req = .event (.host 0x00000001#32)) ∧
  ∀ s : State,
    (∀ bytes, s.busReply 0 = some (.ok bytes) →
      exec .req s = .next { s with
        regs := { s.regs with
          lastModeValid := true, lastMode := .singleShot,
          ctrlState := match s.regs.ctrlState with
            | .idle => .awaitingSingle
            | .awaitingSingle => .awaitingSingle
            | .continuous => .continuous }
        busAnswers := s.busAnswers.tail
        transfers := s.transfers + 1
        trace := s.trace ++ [.bus (.write [regAddr s.params .mode, modeCode s.params .singleShot]) (.ok bytes), .respond .ok 0#32 none] }) ∧
    (∀ e, s.busReply 0 = some (.err e) →
      exec .req s = .next { s with
        busAnswers := s.busAnswers.tail
        transfers := s.transfers + 1
        trace := s.trace ++ [.bus (.write [regAddr s.params .mode, modeCode s.params .singleShot]) (.err e),
          .respond .errTransport 0#32 (some e)] })

/-- 43_sampling_controller R195: SETGAIN writes the gain byte to the gain register, and holds the gain only if the write succeeds. -/
def Obligations.SetgainWritesThenHolds : Prop :=
  ∀ (g : GainIndex) (s : State),
    (∀ p, encode p (.setgain g) = .event (.host (0x00000002#32 ||| (g.setWidth 32 <<< 4)))) ∧
    (∀ bytes, s.busReply 0 = some (.ok bytes) →
      exec (.setgain g) s = .next { s with
        regs := { s.regs with gainSet := true, gain := g }
        busAnswers := s.busAnswers.tail
        transfers := s.transfers + 1
        trace := s.trace ++ [.bus (.write [regAddr s.params s.params.gainReg, gainCode s.params g]) (.ok bytes), .respond .ok 0#32 none] }) ∧
    (∀ e, s.busReply 0 = some (.err e) →
      exec (.setgain g) s = .next { s with
        busAnswers := s.busAnswers.tail
        transfers := s.transfers + 1
        trace := s.trace ++ [.bus (.write [regAddr s.params s.params.gainReg, gainCode s.params g]) (.err e), .respond .errTransport 0#32 (some e)] })

/-- 43_sampling_controller R198, R199, R200: START, in every state, with no bus transfer. -/
def Obligations.StartArmsTimer : Prop :=
  (∀ p, encode p .start = .event (.host 0x00000003#32)) ∧
  ∀ s : State, exec .start s = .next { s with
    regs := { s.regs with ctrlState := .continuous, armed := true }
    trace := s.trace ++ [.timerStart s.regs.interval, .respond .ok 0#32 none] }

/-- 43_sampling_controller R201: STOP, in every state; where the timer is not armed it emits no timer command, so that a second STOP
changes nothing and emits only its response. -/
def Obligations.StopDisarmsTimer : Prop :=
  (∀ p, encode p .stop = .event (.host 0x00000004#32)) ∧
  (∀ s : State, exec .stop s = .next { s with
    regs := { s.regs with ctrlState := .idle, armed := false }
    trace := s.trace ++ ((if s.regs.armed then [.timerStop] else []) ++ [.respond .ok 0#32 none]) }) ∧
  (∀ s t : State, exec .stop s = .next t →
    exec .stop t = .next { t with trace := t.trace ++ [.respond .ok 0#32 none] })

/-- 43_sampling_controller R203, R204, R205: SETIVL stores every interval unchanged, restarts the timer only where it is armed, and
changes neither ctrl_state nor armed. -/
def Obligations.SetivlStoresInterval : Prop :=
  ∀ (t : Interval) (s : State),
    (∀ p, encode p (.setivl t) = .event (.host (0x00000005#32 ||| (t.setWidth 32 <<< 8)))) ∧
    exec (.setivl t) s = .next { s with
      regs := { s.regs with interval := t }
      trace := s.trace ++ ((if s.regs.armed then [.timerStop, .timerStart t] else []) ++ [.respond .ok 0#32 none]) }

/-- 43_sampling_controller R206: GETIVL answers the interval and changes nothing; before any SETIVL that is INTERVAL_RESET. -/
def Obligations.GetivlAnswersInterval : Prop :=
  (∀ p, encode p .getivl = .event (.host 0x00000006#32)) ∧
  (∀ s : State, exec .getivl s = .next { s with
    trace := s.trace ++ [.respond .ok (s.regs.interval.setWidth 32) none] }) ∧
  exec .getivl State.reset = .next { State.reset with
    trace := [.respond .ok (Config.intervalReset.setWidth 32) none] }

/-! ### The environment events -/

/-- 43_sampling_controller R208: in CONTINUOUS a TICK makes one mode write and stays there, reporting to the timer's context; in any
other state it stops the timer and does nothing else. -/
def Obligations.TickRequestsOnlyInContinuous : Prop :=
  (∀ p, encode p .tick = .event .timer) ∧ Event.timer.word = 0x00000008#32 ∧
  ∀ s : State,
    (∀ bytes, s.regs.ctrlState = .continuous → s.busReply 0 = some (.ok bytes) →
      exec .tick s = .next { s with
        regs := { s.regs with lastModeValid := true, lastMode := .singleShot }
        busAnswers := s.busAnswers.tail
        transfers := s.transfers + 1
        trace := s.trace ++ [.bus (.write [regAddr s.params .mode, modeCode s.params .singleShot]) (.ok bytes), .eventStatus .tick .ok none] }) ∧
    (∀ e, s.regs.ctrlState = .continuous → s.busReply 0 = some (.err e) →
      exec .tick s = .next { s with
        busAnswers := s.busAnswers.tail
        transfers := s.transfers + 1
        trace := s.trace ++ [.bus (.write [regAddr s.params .mode, modeCode s.params .singleShot]) (.err e),
          .eventStatus .tick .errTransport (some e)] }) ∧
    (s.regs.ctrlState ≠ .continuous →
      exec .tick s = .next { s with trace := s.trace ++ [.timerStop, .eventStatus .tick .ok none] })

/-- 43_sampling_controller R211, R210, R212 and 41_sample_decoder R146, R147: DRDY, in every state: one block read of six bytes; on
failure no register changes; on success AWAITING_SINGLE returns to IDLE, and a block with no sentinel is notified with its angle, before the status. The angle is that of
the machine's ATANX. -/
def Obligations.DrdyReadsDecodesNotifies : Prop :=
  (∀ p, encode p .drdy = .event .interrupt) ∧ Event.interrupt.word = 0x00000009#32 ∧
  ∀ s : State,
    (∀ b0 b1 b2 b3 b4 b5 : Byte, s.busReply 6 = some (.ok [b0, b1, b2, b3, b4, b5]) →
      exec .drdy s = .next { s with
        regs := { s.regs with ctrlState := match s.regs.ctrlState with
          | .idle => .idle
          | .awaitingSingle => .idle
          | .continuous => .continuous }
        busAnswers := s.busAnswers.tail
        transfers := s.transfers + 1
        trace := s.trace ++ ([.bus (.writeRead [regAddr s.params .dataXMsb] 6) (.ok [b0, b1, b2, b3, b4, b5])] ++
          (if decodeAxis b0 b1 = -4096 ∨ decodeAxis b4 b5 = -4096 ∨ decodeAxis b2 b3 = -4096 then []
           else [.notify {
             nAngle := (angle s.params.atanx (decodeAxis b0 b1) (decodeAxis b4 b5)).bits
             nX := BitVec.ofInt 16 (decodeAxis b0 b1)
             nY := BitVec.ofInt 16 (decodeAxis b4 b5)
             nZ := BitVec.ofInt 16 (decodeAxis b2 b3) }]) ++
          [.eventStatus .drdy .ok none]) }) ∧
    (∀ e, s.busReply 6 = some (.err e) →
      exec .drdy s = .next { s with
        busAnswers := s.busAnswers.tail
        transfers := s.transfers + 1
        trace := s.trace ++ [.bus (.writeRead [regAddr s.params .dataXMsb] 6) (.err e), .eventStatus .drdy .errTransport (some e)] })

/-! ### The register-protocol unit -/

/-- 40_register_protocol R123, 30_encoding R89: WRREG puts exactly its encoding on the bus and returns, or returns the bus's error. -/
def Obligations.WrregSendsTwoBytes : Prop :=
  ∀ (reg : RegName) (value : Byte) (s : State),
    encode s.params (.wrreg reg value) = .bus (.write [regAddr s.params reg, value]) ∧
    ∀ r, s.busReply 0 = some r →
      ∃ out, out = (match r with | .ok _ => BusResult.ok [] | .err e => .err e) ∧
        exec (.wrreg reg value) s = .next { s with
          busAnswers := s.busAnswers.tail
          transfers := s.transfers + 1
          trace := s.trace ++ [.bus (.write [regAddr s.params reg, value]) r, .unitReturn out] }

/-- 40_register_protocol R121, 30_encoding R90: RDBYTE reads one byte in one transfer and returns it, or returns the bus's error. -/
def Obligations.RdbyteReadsOneByte : Prop :=
  ∀ (reg : RegName) (s : State),
    encode s.params (.rdbyte reg) = .bus (.writeRead [regAddr s.params reg] 1) ∧
    (∀ b, s.busReply 1 = some (.ok [b]) →
      exec (.rdbyte reg) s = .next { s with
        busAnswers := s.busAnswers.tail
        transfers := s.transfers + 1
        trace := s.trace ++ [.bus (.writeRead [regAddr s.params reg] 1) (.ok [b]), .unitReturn (.ok [b])] }) ∧
    (∀ e, s.busReply 1 = some (.err e) →
      exec (.rdbyte reg) s = .next { s with
        busAnswers := s.busAnswers.tail
        transfers := s.transfers + 1
        trace := s.trace ++ [.bus (.writeRead [regAddr s.params reg] 1) (.err e), .unitReturn (.err e)] })

/-- 40_register_protocol R122, 30_encoding R91: RDBLK reads n bytes, 1 to 255, in one transfer and returns exactly those n bytes or the
bus's error; other counts are refused, as the rule lets a model do (DESIGN CHOICE, log 3). -/
def Obligations.RdblkReadsExactlyN : Prop :=
  ∀ (reg : RegName) (n : Nat) (s : State),
    encode s.params (.rdblk reg n) = .bus (.writeRead [regAddr s.params reg] n) ∧
    (∀ r, 1 ≤ n → n ≤ 255 → s.busReply n = some r →
      (∀ bytes, r = .ok bytes → bytes.length = n) ∧
      exec (.rdblk reg n) s = .next { s with
        busAnswers := s.busAnswers.tail
        transfers := s.transfers + 1
        trace := s.trace ++ [.bus (.writeRead [regAddr s.params reg] n) r, .unitReturn r] }) ∧
    (n = 0 ∨ 255 < n → exec (.rdblk reg n) s = .refused (.blockLength n))

/-- 40_register_protocol R122 and 92_eei_decisions D26: what the bus answers reaches the block unchanged where it has the length the
transfer reads, or is an error; an answer of any other length is an error, whose content is a free value (log 6). -/
def Obligations.WrongLengthAnswerIsError : Prop :=
  ∀ (n : Nat) (s : State) (answers : List BusAnswer),
    (∀ bytes, s.busAnswers = .done (.ok bytes) :: answers → bytes.length = n → s.busReply n = some (.ok bytes)) ∧
    (∀ e, s.busAnswers = .done (.err e) :: answers → s.busReply n = some (.err e)) ∧
    (∀ bytes, s.busAnswers = .done (.ok bytes) :: answers → bytes.length ≠ n → ∃ e, s.busReply n = some (.err e)) ∧
    (s.busAnswers = [] → ∃ r, s.busReply n = some r ∧ ∀ bytes, r = .ok bytes → bytes.length = n)

/-! ### Rules of the whole controller -/

/-- One row of 43_sampling_controller R214's table: the next controller state, the transfers, the timer commands. A direct call of the
register-protocol unit is no row of it. -/
def transitionRow (p : Params) (i : Instr) (failed : Bool) (r : Regs) : Option (CtrlState × List BusRequest × List Output) :=
  match i with
  | .req => some (if failed then r.ctrlState else match r.ctrlState with
      | .idle => .awaitingSingle
      | .awaitingSingle => .awaitingSingle
      | .continuous => .continuous, [.write [regAddr p .mode, modeCode p .singleShot]], [])
  | .setgain g => some (r.ctrlState, [.write [regAddr p p.gainReg, gainCode p g]], [])
  | .start => some (.continuous, [], [.timerStart r.interval])
  | .stop => some (.idle, [], if r.armed then [.timerStop] else [])
  | .setivl t => some (r.ctrlState, [], if r.armed then [.timerStop, .timerStart t] else [])
  | .getivl => some (r.ctrlState, [], [])
  | .tick => some (match r.ctrlState with
    | .continuous => (.continuous, [.write [regAddr p .mode, modeCode p .singleShot]], [])
    | .idle => (.idle, [], [.timerStop])
    | .awaitingSingle => (.awaitingSingle, [], [.timerStop]))
  | .drdy => some (if failed then r.ctrlState else match r.ctrlState with
      | .idle => .idle
      | .awaitingSingle => .idle
      | .continuous => .continuous, [.writeRead [regAddr p .dataXMsb] 6], [])
  | .wrreg _ _ => none
  | .rdbyte _ => none
  | .rdblk _ _ => none

/-- 43_sampling_controller R214: the transition table, for every event of the stream, failed or not, and what happens to armed; and
the row of an illegal word. -/
def Obligations.TransitionTableHolds : Prop :=
  (∀ (i : Instr) (s t : State), exec i s = .next t →
    ∀ row, transitionRow s.params i ((newOutputs s t).any Output.isFailure) s.regs = some row →
      (t.regs.ctrlState, transfersOf (newOutputs s t), (newOutputs s t).filter Output.isTimer) = row ∧
      (i = .start → t.regs.armed = true) ∧ (i = .stop → t.regs.armed = false) ∧
      (i ≠ .start → i ≠ .stop → t.regs.armed = s.regs.armed)) ∧
  (∀ (s t : State) (w : Word) (rest : List Event),
    s.unitPort = none → s.events = .host w :: rest → ¬ LegalWord w → step s = .next t →
    t.regs = s.regs ∧ transfersOf (newOutputs s t) = [] ∧ (newOutputs s t).filter Output.isTimer = [])

/-- A direct call of the register-protocol unit (40_register_protocol R120: the unit holds no state; that it can be called directly is
the model's choice, log 3) changes no register, makes exactly its own transfer and gives no timer command. -/
def Obligations.UnitCallsKeepRegisters : Prop :=
  ∀ (i : Instr) (q : BusRequest) (s t : State), encode s.params i = .bus q → exec i s = .next t →
    t.regs = s.regs ∧ transfersOf (newOutputs s t) = [q] ∧ (newOutputs s t).filter Output.isTimer = []

/-- 00_scope R9: the parameters are given with the machine: no step, and so no run, changes them. -/
def Obligations.StepsKeepParameters : Prop :=
  (∀ s t : State, step s = .next t → t.params = s.params) ∧
  (∀ (n : Nat) (s t : State), core.run n s = .next t → t.params = s.params)

/-- 43_sampling_controller R217: a step whose transfer fails changes no register. -/
def Obligations.BusFailureKeepsRecord : Prop :=
  ∀ s t : State, step s = .next t → (newOutputs s t).any Output.isFailure = true → t.regs = s.regs

/-- 60_exceptions R242: a step reports ERR_TRANSPORT exactly where its transfer failed, with that transfer's error, to the step's
initiator; then the failed transfer and the report are all it emits and no register is written; and only REQ, SETGAIN, a TICK in
CONTINUOUS and DRDY can, each of them wherever the bus answers its transfer with an error. -/
def Obligations.TransportErrorOnlyFromFailedTransfer : Prop :=
  ∀ (s t : State) (e : Event) (rest : List Event),
    s.unitPort = none → s.events = e :: rest → step s = .next t →
    ((∃ o ∈ newOutputs s t, o.status? = some .errTransport) ↔ (newOutputs s t).any Output.isFailure = true) ∧
    ((newOutputs s t).any Output.isFailure = true →
      (∃ q err report, newOutputs s t = [.bus q (.err err), report] ∧
        (match e with
          | .host _ => report = .respond .errTransport 0#32 (some err)
          | .timer => report = .eventStatus .tick .errTransport (some err)
          | .interrupt => report = .eventStatus .drdy .errTransport (some err))) ∧
      t.regs = s.regs ∧
      (decodeEvent e = .ok .req ∨ (∃ g, decodeEvent e = .ok (.setgain g)) ∨
        (e = .timer ∧ s.regs.ctrlState = .continuous) ∨ e = .interrupt)) ∧
    ((decodeEvent e = .ok .req ∨ (∃ g, decodeEvent e = .ok (.setgain g)) ∨ (e = .timer ∧ s.regs.ctrlState = .continuous)) →
      (∃ err, s.busReply 0 = some (.err err)) → (newOutputs s t).any Output.isFailure = true) ∧
    (e = .interrupt → (∃ err, s.busReply 6 = some (.err err)) → (newOutputs s t).any Output.isFailure = true)

/-- 10_state R29, R30, 30_encoding R98: the step of an event reports exactly one status, last, to the event's own initiator; it makes
at most one transfer and at most one notification, and forgets nothing it emitted before. -/
def Obligations.StepReportsOneStatus : Prop :=
  ∀ (s t : State) (e : Event) (rest : List Event),
    s.unitPort = none → s.events = e :: rest → step s = .next t →
    t.events = rest ∧ t.unitPort = none ∧
    ∃ (body : List Output) (status : Status) (info : Option ErrInfo) (data : Word),
      t.trace = s.trace ++ body ++ [match e with
        | .host _ => .respond status data info
        | .timer => .eventStatus .tick status info
        | .interrupt => .eventStatus .drdy status info] ∧
      (∀ o ∈ body, o.status? = none) ∧ (transfersOf body).length ≤ 1 ∧ (body.filter Output.isNotify).length ≤ 1

/-- 43_sampling_controller R202 (20_memory R63 (c)): after a STOP, and until a START, the transfers made are exactly those the direct
commands and the interrupts ask for themselves: no TICK makes one, a mode write or any other, however many come in whatever order with whatever
else; and a further TICK does nothing but stop the timer. -/
def Obligations.StopSilencesTicks : Prop :=
  ∀ (s s0 t : State) (events : List Event) (n : Nat),
    exec .stop s = .next s0 → s.unitPort = none →
    (∀ e ∈ events, decodeEvent e ≠ .ok .start) → n ≤ events.length →
    core.run n { s0 with events := events } = .next t →
    t.regs.ctrlState ≠ .continuous ∧
    transfersOf (newOutputs s0 t) = (events.take n).flatMap (ownTransfers s.params) ∧
    exec .tick t = .next { t with trace := t.trace ++ [.timerStop, .eventStatus .tick .ok none] }

/-- 10_state R30, 70_reset_and_hazards R278: an event that arrives during a step (a command a consumer issues from its notification,
say) has no part in it: the step ends as it would have, with the event waiting behind the others. -/
def Obligations.StepIgnoresLaterEvents : Prop :=
  ∀ (s t : State) (e : Event), (s.unitPort ≠ none ∨ s.events ≠ []) → step s = .next t →
    step (s.deliver e) = .next (t.deliver e)

/-- 43_sampling_controller R196, 10_state R24, R25: the held gain and the last mode have no effect on any later step: two states
that differ in nothing else run alike, emitting the same outputs, and stop alike. -/
def Obligations.HeldGainAndModeAreInert : Prop :=
  ∀ (n : Nat) (s s' : State), SameButHeld s s' →
    (∀ t, core.run n s = .next t → ∃ t', core.run n s' = .next t' ∧ SameButHeld t t' ∧ t'.trace = t.trace) ∧
    (∀ f, core.run n s = .fault f → core.run n s' = .fault f) ∧
    (∀ r, core.run n s = .refused r → core.run n s' = .refused r)

/-- 30_encoding R87: the data word of a response is zext_32(interval) for GETIVL, whose status is OK, and 0 in every other response. -/
def Obligations.ResponseDataIsInterval : Prop :=
  ∀ (s t : State) (e : Event) (rest : List Event) (status : Status) (data : Word) (info : Option ErrInfo),
    s.unitPort = none → s.events = e :: rest → step s = .next t →
    .respond status data info ∈ newOutputs s t →
    (decodeEvent e = .ok .getivl → status = .ok ∧ data.toNat = s.regs.interval.toNat) ∧
    (decodeEvent e ≠ .ok .getivl → data = 0#32)

/-- Whether an instruction makes a transfer in a state (40_register_protocol R127, 60_exceptions R242). -/
def performsTransfer (i : Instr) (s : State) : Prop :=
  match i with
  | .req => True
  | .setgain _ => True
  | .start => False
  | .stop => False
  | .setivl _ => False
  | .getivl => False
  | .tick => s.regs.ctrlState = .continuous
  | .drdy => True
  | .wrreg _ _ => True
  | .rdbyte _ => True
  | .rdblk _ n => 1 ≤ n ∧ n ≤ 255

/-- 60_exceptions R260: a transfer that never completes sticks the step, and nothing else does; the stuck machine takes no later step. -/
def Obligations.HungTransferSticksStep : Prop :=
  (∀ (i : Instr) (s : State), s.Hung → performsTransfer i s → exec i s = .fault .busHang) ∧
  (∀ (i : Instr) (s : State) (f : Fault), exec i s = .fault f → f = .busHang ∧ s.Hung ∧ performsTransfer i s) ∧
  (∀ (s : State) (f : Fault) (n : Nat), step s = .fault f → core.run (n + 1) s = .fault f)

/-- 43_sampling_controller R216: no public operation is refused for the state it is issued in; the only refusals on the event stream
are illegal words. -/
def Obligations.LegalOperationsNeverRefused : Prop :=
  (∀ (i : Instr) (s : State) (r : Refusal), i.wellFormed = true → exec i s ≠ .refused r) ∧
  (∀ (s : State) (r : Refusal), s.unitPort = none → step s ≠ .refused r) ∧
  (∀ (s t : State) (w : Word) (rest : List Event) (o : Output), s.unitPort = none → s.events = .host w :: rest → LegalWord w →
    step s = .next t → o ∈ newOutputs s t → o.status? ≠ some .errIllegal)

/-- Every well-formed instruction completes in every state whose next transfer is not one that never completes (43_sampling_controller
R216, 60_exceptions R260), having added to the trace and taken nothing from it. -/
def Obligations.InstructionsCompleteUnlessHung : Prop :=
  ∀ (i : Instr) (s : State), i.wellFormed = true → ¬ s.Hung →
    ∃ t new, exec i s = .next t ∧ t.trace = s.trace ++ new ∧ t.events = s.events ∧ t.unitPort = s.unitPort

/-- 41_sample_decoder R146, 43_sampling_controller R212: a notification is issued by DRDY alone, exactly once, for a block that was
read and holds no sentinel, and it carries that block's sample. -/
def Obligations.OneNotificationPerValidBlock : Prop :=
  ∀ (i : Instr) (s t : State), exec i s = .next t →
    ((∃ m, .notify m ∈ newOutputs s t) ↔
      i = .drdy ∧ ∃ bytes, s.busReply 6 = some (.ok bytes) ∧ validate (decodeBlock bytes) = true) ∧
    (∀ m, .notify m ∈ newOutputs s t → ∃ bytes, s.busReply 6 = some (.ok bytes) ∧
      m = (sampleOf s.params.atanx (decodeBlock bytes)).encode ∧ (newOutputs s t).count (.notify m) = 1)

/-- 30_encoding R102: STARTIVL t, SETIVL t then START, starts the timer at t and leaves continuous acquisition at that interval. -/
def Obligations.StartIvlStartsAtInterval : Prop :=
  ∀ (t : Interval) (s : State), s.unitPort = none →
    ∃ u new, core.run 2 { s with events := (startIvl t).map (fun i => match encode s.params i with
        | .event e => e
        | .bus _ => .timer) ++ s.events } = .next u ∧
      u.regs = { s.regs with interval := t, ctrlState := .continuous, armed := true } ∧
      u.events = s.events ∧
      u.trace = s.trace ++ new ++ [.timerStart t, .respond .ok 0#32 none] ∧ transfersOf new = []

/-! ### The sample decoder -/

/-- 41_sample_decoder R141: the device's sign rule, its range, its difference from two's complement, and that only 0 has two patterns. -/
def Obligations.DecodeAxisFollowsDeviceRule : Prop :=
  (∀ high low : Byte,
    (high.toNat * 256 + low.toNat ≤ 0x7FFF → decodeAxis high low = high.toNat * 256 + low.toNat) ∧
    (0x8000 ≤ high.toNat * 256 + low.toNat → decodeAxis high low = (high.toNat * 256 + low.toNat : Int) - 65535) ∧
    (0x8000 ≤ high.toNat * 256 + low.toNat → decodeAxis high low = (raw16 high low).toInt + 1) ∧
    -32767 ≤ decodeAxis high low ∧ decodeAxis high low ≤ 32767) ∧
  (∀ h l h' l' : Byte, decodeAxis h l = decodeAxis h' l' → decodeAxis h l ≠ 0 → h = h' ∧ l = l') ∧
  (∀ h l : Byte, decodeAxis h l = 0 ↔ (h = 0x00#8 ∧ l = 0x00#8) ∨ (h = 0xFF#8 ∧ l = 0xFF#8))

/-- 41_sample_decoder R144: the sentinel is the decoded value -4096, compared after DECODE_AXIS, and on any axis it marks the sample
invalid; only the pattern 0xEFFF decodes to it, so no other (0xF000, which is -4095, among them) invalidates. -/
def Obligations.SentinelPatternIsOnlyEFFF : Prop :=
  (∀ high low : Byte, decodeAxis high low = -4096 ↔ high = 0xEF#8 ∧ low = 0xFF#8) ∧
  decodeAxis 0xF0#8 0x00#8 = -4095 ∧ Config.sentinel = -4096 ∧
  (∀ r : RawSample, r.x = -4096 ∨ r.y = -4096 ∨ r.z = -4096 → validate r = false) ∧
  (∀ h l : Byte, ∀ r : RawSample, r.x ≠ -4096 → r.y ≠ -4096 → r.z = decodeAxis h l → (h, l) ≠ (0xEF#8, 0xFF#8) → validate r = true)

/-- 41_sample_decoder R142, 20_memory R54: bytes 0-1 are x, bytes 2-3 are z, bytes 4-5 are y. -/
def Obligations.BlockOrderIsXZY : Prop :=
  ∀ b0 b1 b2 b3 b4 b5 : Byte,
    decodeBlock [b0, b1, b2, b3, b4, b5] =
      { x := decodeAxis b0 b1, y := decodeAxis b4 b5, z := decodeAxis b2 b3 }

/-- 41_sample_decoder R145: valid exactly where no axis, z among them, is -4096. -/
def Obligations.AnySentinelAxisInvalidates : Prop :=
  ∀ x y z : Int, validate { x := x, y := y, z := z } = true ↔ ¬ (x = -4096 ∨ y = -4096 ∨ z = -4096)

/-- 30_encoding R96: the notification's fields; each 16-bit field is the two's complement encoding of its decoded reading, and so gives it
back; only valid samples are notified. -/
def Obligations.NotificationEncodesSample : Prop :=
  (∀ (a : F64) (x y z : Int),
    -32767 ≤ x → x ≤ 32767 → -32767 ≤ y → y ≤ 32767 → -32767 ≤ z → z ≤ 32767 →
    ({ angle := a, x := x, y := y, z := z } : Sample).encode.nAngle = a.bits ∧
    ({ angle := a, x := x, y := y, z := z } : Sample).encode.nX.toInt = x ∧
    ({ angle := a, x := x, y := y, z := z } : Sample).encode.nY.toInt = y ∧
    ({ angle := a, x := x, y := y, z := z } : Sample).encode.nZ.toInt = z) ∧
  (∀ (i : Instr) (s t : State) (m : Notification), exec i s = .next t → .notify m ∈ newOutputs s t →
    ∃ r : RawSample, r.Valid ∧ m = (sampleOf s.params.atanx r).encode)

/-! ### The angle estimator and binary64 -/

/-- 42_angle_estimator R161: the constants have the bits the table gives, PI is PIO2 + PIO2 (exactly) and K is 180.0 / PI, and each
of PIO2, PIO4, PI, SQ2M1, SQ2P1 is within half a unit in the last place of the real number it is nearest to. -/
def Obligations.AngleConstantsAreNearest : Prop :=
  pio2 = ⟨0x3FF921FB54442D18#64⟩ ∧ pio4 = ⟨0x3FE921FB54442D18#64⟩ ∧ sq2m1 = ⟨0x3FDA827999FCEF32#64⟩ ∧
  sq2p1 = ⟨0x4003504F333F9DE6#64⟩ ∧ c180 = ⟨0x4066800000000000#64⟩ ∧ piF = F64.add pio2 pio2 ∧ kF = F64.div c180 piF ∧
  piF.toRat = pio2.toRat + pio2.toRat ∧
  piF = ⟨0x400921FB54442D18#64⟩ ∧ kF = ⟨0x404CA5DC1A63C1F8#64⟩ ∧ c180.toRat = 180 ∧
  |((pio2.toRat : ℚ) : ℝ) - Real.pi / 2| < 1 / 2 ^ 53 ∧
  |((pio4.toRat : ℚ) : ℝ) - Real.pi / 4| < 1 / 2 ^ 54 ∧
  |((piF.toRat : ℚ) : ℝ) - Real.pi| < 1 / 2 ^ 52 ∧
  |((sq2m1.toRat : ℚ) : ℝ) - (Real.sqrt 2 - 1)| < 1 / 2 ^ 55 ∧
  |((sq2p1.toRat : ℚ) : ℝ) - (Real.sqrt 2 + 1)| < 1 / 2 ^ 52

/-- 42_angle_estimator R169: the exact angles on the axes and diagonals, for both forms: where x = 0 for every coefficient set, and
elsewhere for every one whose ATANX gives a number at 0 (what the rule calls finite, DEDUCED, log 14). -/
def Obligations.CoefficientIndependentAngles : Prop :=
  ∀ (c : Atanx) (x y : Int), -32767 ≤ x → x ≤ 32767 → -32767 ≤ y → y ≤ 32767 →
    (x = 0 → 0 < y → angle c x y = toF64 270) ∧
    (x = 0 → y = 0 → angle c x y = toF64 180) ∧
    (x = 0 → y < 0 → angle c x y = toF64 90) ∧
    (c.Finite →
      (y = 0 → 0 < x → angle c x y = toF64 180) ∧
      (y = 0 → x < 0 → angle c x y = toF64 360) ∧
      (y = x → 0 < x → angle c x y = toF64 225) ∧
      (y = -x → 0 < x → angle c x y = toF64 135) ∧
      (y = x → x < 0 → angle c x y = toF64 45) ∧
      (y = -x → x < 0 → angle c x y = toF64 315))

/-- 42_angle_estimator R165, corner cases: ATANX is odd, exactly, wherever it gives a number, for every coefficient set and both forms. -/
def Obligations.AtanxIsOdd : Prop :=
  ∀ (c : Atanx) (v : F64), (atanx c v).isNaN = false → atanx c v.neg = (atanx c v).neg

/-- 42_angle_estimator R163, with its corner cases: on the block's integer inputs ATAN2 takes the branch the integers say, for every
coefficient set and both forms, the inner test of step 1 included; for the guard `a + b == a` holds exactly where x = 0. The first argument is the
y reading, the second the x reading. -/
def Obligations.Atan2GuardsAreExact : Prop :=
  ∀ (c : Atanx) (x y : Int), -32767 ≤ x → x ≤ 32767 → -32767 ≤ y → y ≤ 32767 →
    (F64.eq (F64.add (toF64 y) (toF64 x)) (toF64 y) = true ↔ x = 0) ∧
    -- step 1
    (x = 0 → y = 0 → atan2 c (toF64 y) (toF64 x) = zeroF) ∧
    (x = 0 → 0 < y → atan2 c (toF64 y) (toF64 x) = pio2) ∧
    (x = 0 → y < 0 → atan2 c (toF64 y) (toF64 x) = F64.neg pio2) ∧
    -- step 2
    (x < 0 → 0 ≤ y → atan2 c (toF64 y) (toF64 x) = F64.sub piF (atans c (F64.div (F64.neg (toF64 y)) (toF64 x)))) ∧
    (x < 0 → y < 0 → atan2 c (toF64 y) (toF64 x) = F64.add (F64.neg piF) (atans c (F64.div (toF64 y) (toF64 x)))) ∧
    -- step 3
    (0 < x → 0 < y → atan2 c (toF64 y) (toF64 x) = atans c (F64.div (toF64 y) (toF64 x))) ∧
    -- step 4
    (0 < x → y ≤ 0 → atan2 c (toF64 y) (toF64 x) = F64.neg (atans c (F64.div (F64.neg (toF64 y)) (toF64 x))))

/-- 00_scope R11: toF64 is exact for |n| < 2^53. -/
def Obligations.IntegersConvertExactly : Prop :=
  ∀ n : Int, |n| < 2 ^ 53 → (toF64 n).isFinite = true ∧ (toF64 n).toRat = n

/-- 00_scope R11: `+` of finite numbers is the exact sum rounded once, to nearest with ties to even, with IEEE 754's sign: an exact
zero sum is -0 only where both operands are negative; so is `-`, of the difference. -/
def Obligations.AdditionRoundsOnce : Prop :=
  ∀ x y : F64, x.isFinite = true → y.isFinite = true →
    RoundsTo (x.toRat + y.toRat) (F64.add x y) ∧
    (x.toRat + y.toRat = 0 → F64.add x y = F64.ofMagnitude (x.sign && y.sign) 0) ∧
    (x.toRat + y.toRat ≠ 0 → (F64.add x y).sign = decide (x.toRat + y.toRat < 0)) ∧
    RoundsTo (x.toRat - y.toRat) (F64.sub x y) ∧
    (x.toRat - y.toRat = 0 → F64.sub x y = F64.ofMagnitude (x.sign && !y.sign) 0) ∧
    (x.toRat - y.toRat ≠ 0 → (F64.sub x y).sign = decide (x.toRat - y.toRat < 0))

/-- 00_scope R11: `*` of finite numbers is the exact product rounded once, to nearest with ties to even; its sign, that of a zero
among them, is negative exactly where one operand's is. -/
def Obligations.MultiplicationRoundsOnce : Prop :=
  ∀ x y : F64, x.isFinite = true → y.isFinite = true →
    RoundsTo (x.toRat * y.toRat) (F64.mul x y) ∧ (F64.mul x y).sign = (x.sign != y.sign)

/-- 00_scope R11: `/` of finite numbers, the divisor not zero, is the exact quotient rounded once, to nearest with ties to even; its
sign, that of a zero among them, is negative exactly where one operand's is. -/
def Obligations.DivisionRoundsOnce : Prop :=
  ∀ x y : F64, x.isFinite = true → y.isFinite = true → y.toRat ≠ 0 →
    RoundsTo (x.toRat / y.toRat) (F64.div x y) ∧ (F64.div x y).sign = (x.sign != y.sign)

/-- 00_scope R11: on finite numbers the comparisons, unary minus and abs are those of the values. -/
def Obligations.ComparisonsFollowValues : Prop :=
  ∀ x y : F64, x.isFinite = true → y.isFinite = true →
    (F64.eq x y = true ↔ x.toRat = y.toRat) ∧
    (F64.lt x y = true ↔ x.toRat < y.toRat) ∧
    (F64.gt x y = true ↔ x.toRat > y.toRat) ∧
    (F64.ge x y = true ↔ x.toRat ≥ y.toRat) ∧
    x.neg.toRat = -x.toRat ∧ x.abs.toRat = |x.toRat|

/-- 30_encoding R92, the constraint on every REG_ADDR (92_eei_decisions D8, U18): the maps the parameters admit are exactly those whose six
data registers are consecutive in the order X high, X low, Z high, Z low, Y high, Y low; so, read from the first with auto-increment, they
return their bytes in that order, whatever the parameters and whatever the registers hold. That consecutive addresses do not wrap past 0xFF
is the model's reading (DEDUCED, log 8). -/
def Obligations.RegisterMapsKeepDataOrder : Prop :=
  (∀ addr : RegName → Byte, DataInOrder addr ↔ ∃ p : Params, regAddr p = addr) ∧
  (∀ (p : Params) (content : Byte → Byte),
    readFrom content (regAddr p .dataXMsb) 6 =
      [content (regAddr p .dataXMsb), content (regAddr p .dataXLsb), content (regAddr p .dataZMsb),
       content (regAddr p .dataZLsb), content (regAddr p .dataYMsb), content (regAddr p .dataYLsb)])
end

