-- ==== Sys2Proof/Laws/Decode.lean ====
section
/-! SUPPORT. The fields of a host word as numbers, the decoder over those numbers, and the register map both ways. -/

namespace Sys2Proof

open Machine

theorem opField_toNat (w : Word) : (opField w).toNat = w.toNat % 16 := by
  simp [opField, BitVec.extractLsb'_toNat]

theorem gainField_toNat (w : Word) : (gainField w).toNat = w.toNat / 16 % 8 := by
  simp [gainField, BitVec.extractLsb'_toNat, Nat.shiftRight_eq_div_pow]

theorem ivlField_toNat (w : Word) : (ivlField w).toNat = w.toNat / 256 := by
  have := w.isLt
  simp [ivlField, BitVec.extractLsb'_toNat, Nat.shiftRight_eq_div_pow]
  omega

theorem bits_31_4_zero (w : Word) : w.extractLsb' 4 28 = 0 ↔ w.toNat / 16 = 0 := by
  have := w.isLt
  simp only [← BitVec.toNat_inj, BitVec.extractLsb'_toNat, Nat.shiftRight_eq_div_pow, show (0 : BitVec _).toNat = 0 from rfl]
  omega

theorem bits_31_7_zero (w : Word) : w.extractLsb' 7 25 = 0 ↔ w.toNat / 128 = 0 := by
  have := w.isLt
  simp only [← BitVec.toNat_inj, BitVec.extractLsb'_toNat, Nat.shiftRight_eq_div_pow, show (0 : BitVec _).toNat = 0 from rfl]
  omega

theorem bits_7_4_zero (w : Word) : w.extractLsb' 4 4 = 0 ↔ w.toNat / 16 % 16 = 0 := by
  simp only [← BitVec.toNat_inj, BitVec.extractLsb'_toNat, Nat.shiftRight_eq_div_pow, show (0 : BitVec _).toNat = 0 from rfl]

/-- The host decoder, over the word as a number. -/
theorem decodeHost_eq (w : Word) : decodeHost w =
    if w.toNat % 16 = 1 then (if w.toNat / 16 = 0 then .ok .req else .error .reservedBits)
    else if w.toNat % 16 = 2 then (if w.toNat / 128 = 0 then .ok (.setgain (gainField w)) else .error .reservedBits)
    else if w.toNat % 16 = 3 then (if w.toNat / 16 = 0 then .ok .start else .error .reservedBits)
    else if w.toNat % 16 = 4 then (if w.toNat / 16 = 0 then .ok .stop else .error .reservedBits)
    else if w.toNat % 16 = 5 then (if w.toNat / 16 % 16 = 0 then .ok (.setivl (ivlField w)) else .error .reservedBits)
    else if w.toNat % 16 = 6 then (if w.toNat / 16 = 0 then .ok .getivl else .error .reservedBits)
    else if w.toNat % 16 = 8 ∨ w.toNat % 16 = 9 then .error .eventCodeFromHost
    else .error .reservedOp := by
  unfold decodeHost unlessReserved
  simp only [opField_toNat, bits_31_4_zero, bits_31_7_zero, bits_7_4_zero]
  have := Nat.mod_lt w.toNat (show 0 < 16 by omega)
  generalize w.toNat % 16 = m at *
  interval_cases m <;> simp

/-- What a host word decodes to is one of the six host commands. -/
theorem decodeHost_command {w : Word} {i : Instr} (h : decodeHost w = .ok i) :
    i = .req ∨ (∃ g, i = .setgain g) ∨ i = .start ∨ i = .stop ∨ (∃ t, i = .setivl t) ∨ i = .getivl := by
  unfold decodeHost unlessReserved at h
  split at h <;> (try split at h) <;> cases h <;> simp

theorem setgainWord_toNat (g : GainIndex) : (0x00000002#32 ||| (g.setWidth 32 <<< 4)).toNat = 2 + 16 * g.toNat := by
  revert g
  decide

theorem setivlWord_toNat (t : Interval) : (0x00000005#32 ||| (t.setWidth 32 <<< 8)).toNat = 5 + 256 * t.toNat := by
  have ht := t.isLt
  simp only [BitVec.toNat_or, BitVec.toNat_shiftLeft, BitVec.toNat_setWidth, BitVec.toNat_ofNat, Nat.shiftLeft_eq]
  rw [Nat.mod_eq_of_lt (by omega : t.toNat < 2 ^ 32), Nat.mod_eq_of_lt (by omega : t.toNat * 2 ^ 8 < 2 ^ 32), Nat.or_comm,
    Nat.mul_comm, ← Nat.two_pow_add_eq_or_of_lt (by decide)]
  omega

/-- A word under SETIVL's mask. -/
theorem setivl_mask (w : Word) : w &&& 0x000000FF#32 = 0x00000005#32 ↔ w.toNat % 256 = 5 := by
  rw [← BitVec.toNat_inj, BitVec.toNat_and, show (0x000000FF#32).toNat = 2 ^ 8 - 1 by decide, Nat.and_two_pow_sub_one_eq_mod]
  rfl

/-- A word under SETGAIN's mask: its fields, but for GAIN, as the table fixes them. -/
theorem setgain_mask (w : Word) : w &&& 0xFFFFFF8F#32 = 0x00000002#32 ↔ w.toNat % 16 = 2 ∧ w.toNat / 128 = 0 := by
  have hw := w.isLt
  have h0 : w.extractLsb' 0 4 = 2 ↔ w.toNat % 16 = 2 := by
    simp only [← BitVec.toNat_inj, BitVec.extractLsb'_toNat, Nat.shiftRight_eq_div_pow, show (2 : BitVec 4).toNat = 2 from rfl]
    omega
  have split : w = (w.extractLsb' 7 25 ++ w.extractLsb' 4 3 ++ w.extractLsb' 0 4 : BitVec 32) := by
    rw [← BitVec.toNat_inj]
    simp only [BitVec.toNat_append, BitVec.extractLsb'_toNat, Nat.shiftRight_eq_div_pow, Nat.shiftLeft_eq]
    rw [Nat.mul_comm, ← Nat.two_pow_add_eq_or_of_lt (by omega), Nat.mul_comm (_ / 2 ^ 7 % _),
      ← Nat.two_pow_add_eq_or_of_lt (by omega)]
    omega
  rw [← bits_31_7_zero, ← h0]
  constructor
  · intro h
    have high := congrArg (BitVec.extractLsb' 7 25) h
    have low := congrArg (BitVec.extractLsb' 0 4) h
    rw [BitVec.extractLsb'_and, show BitVec.extractLsb' 7 25 0xFFFFFF8F#32 = BitVec.allOnes 25 by decide,
      BitVec.and_allOnes] at high
    rw [BitVec.extractLsb'_and, show BitVec.extractLsb' 0 4 0xFFFFFF8F#32 = BitVec.allOnes 4 by decide,
      BitVec.and_allOnes] at low
    exact ⟨low.trans (by decide), high.trans (by decide)⟩
  · rintro ⟨h1, h2⟩
    rw [split, h1, h2]
    generalize w.extractLsb' 4 3 = g
    revert g
    decide

/-! ### The register map both ways (30_encoding R92) -/

/-- An address of `REG_ADDR` stands for some name with that address. -/
theorem regOfAddr_regAddr (p : Params) (r : RegName) : ∃ r', regOfAddr p (regAddr p r) = some r' ∧ regAddr p r' = regAddr p r := by
  cases h : regOfAddr p (regAddr p r) with
  | some r' => exact ⟨r', rfl, by simpa using List.find?_some h⟩
  | none =>
    have := List.find?_eq_none.1 h r (by cases r <;> decide)
    simp at this

theorem regAddr_of_regOfAddr {p : Params} {a : Byte} {r : RegName} (h : regOfAddr p a = some r) : regAddr p r = a := by
  simpa using List.find?_some h

/-- With no two names at one address, the name itself. -/
theorem regOfAddr_of_distinct {p : Params} (h : p.Distinct) (r : RegName) : regOfAddr p (regAddr p r) = some r := by
  obtain ⟨r', hr, ha⟩ := regOfAddr_regAddr p r
  rw [hr, h r' r ha]

/-- What the register of an address decodes to. -/
theorem withReg_regAddr (p : Params) (r : RegName) (f : RegName → Instr) :
    ∃ r', withReg p (regAddr p r) f = .ok (f r') ∧ regAddr p r' = regAddr p r := by
  obtain ⟨r', hr, ha⟩ := regOfAddr_regAddr p r
  exact ⟨r', by simp [withReg, hr], ha⟩

theorem withReg_ok {p : Params} {a : Byte} {f : RegName → Instr} {i : Instr} (h : withReg p a f = .ok i) :
    ∃ r, regAddr p r = a ∧ i = f r := by
  unfold withReg at h
  split at h
  · rename_i r hr
    cases h
    exact ⟨r, regAddr_of_regOfAddr hr, rfl⟩
  · cases h

end Sys2Proof
end

