-- ==== Sys2Proof/Laws/State.lean ====
section
/-! SUPPORT. One lemma per field per update of the state, so that no proof unfolds a record update. -/

namespace Sys2Proof.Machine

/-! ### Outputs and the register record -/

@[simp] theorem State.emit_params (o : Output) (s : State) : (s.emit o).params = s.params := rfl
@[simp] theorem State.emit_regs (o : Output) (s : State) : (s.emit o).regs = s.regs := rfl
@[simp] theorem State.emit_events (o : Output) (s : State) : (s.emit o).events = s.events := rfl
@[simp] theorem State.emit_unitPort (o : Output) (s : State) : (s.emit o).unitPort = s.unitPort := rfl
@[simp] theorem State.emit_busAnswers (o : Output) (s : State) : (s.emit o).busAnswers = s.busAnswers := rfl
@[simp] theorem State.emit_transfers (o : Output) (s : State) : (s.emit o).transfers = s.transfers := rfl
@[simp] theorem State.emit_trace (o : Output) (s : State) : (s.emit o).trace = s.trace ++ [o] := rfl
@[simp] theorem State.setRegs_params (r : Regs) (s : State) : (s.setRegs r).params = s.params := rfl
@[simp] theorem State.setRegs_regs (r : Regs) (s : State) : (s.setRegs r).regs = r := rfl
@[simp] theorem State.setRegs_events (r : Regs) (s : State) : (s.setRegs r).events = s.events := rfl
@[simp] theorem State.setRegs_unitPort (r : Regs) (s : State) : (s.setRegs r).unitPort = s.unitPort := rfl
@[simp] theorem State.setRegs_busAnswers (r : Regs) (s : State) : (s.setRegs r).busAnswers = s.busAnswers := rfl
@[simp] theorem State.setRegs_transfers (r : Regs) (s : State) : (s.setRegs r).transfers = s.transfers := rfl
@[simp] theorem State.setRegs_trace (r : Regs) (s : State) : (s.setRegs r).trace = s.trace := rfl
@[simp] theorem State.deliver_params (e : Event) (s : State) : (s.deliver e).params = s.params := rfl
@[simp] theorem State.deliver_regs (e : Event) (s : State) : (s.deliver e).regs = s.regs := rfl
@[simp] theorem State.deliver_events (e : Event) (s : State) : (s.deliver e).events = s.events ++ [e] := rfl
@[simp] theorem State.deliver_unitPort (e : Event) (s : State) : (s.deliver e).unitPort = s.unitPort := rfl
@[simp] theorem State.deliver_busAnswers (e : Event) (s : State) : (s.deliver e).busAnswers = s.busAnswers := rfl
@[simp] theorem State.deliver_transfers (e : Event) (s : State) : (s.deliver e).transfers = s.transfers := rfl
@[simp] theorem State.deliver_trace (e : Event) (s : State) : (s.deliver e).trace = s.trace := rfl
@[simp] theorem State.illegal_params (s : State) : (s.illegal).params = s.params := rfl
@[simp] theorem State.illegal_regs (s : State) : (s.illegal).regs = s.regs := rfl
@[simp] theorem State.illegal_events (s : State) : (s.illegal).events = s.events := rfl
@[simp] theorem State.illegal_unitPort (s : State) : (s.illegal).unitPort = s.unitPort := rfl
@[simp] theorem State.illegal_busAnswers (s : State) : (s.illegal).busAnswers = s.busAnswers := rfl
@[simp] theorem State.illegal_transfers (s : State) : (s.illegal).transfers = s.transfers := rfl
@[simp] theorem State.illegal_trace (s : State) : (s.illegal).trace = s.trace ++ [.respond .errIllegal 0#32 none] := rfl
@[simp] theorem State.transferred_params (q : BusRequest) (r : BusResult) (s : State) : (s.transferred q r).params = s.params := rfl
@[simp] theorem State.transferred_regs (q : BusRequest) (r : BusResult) (s : State) : (s.transferred q r).regs = s.regs := rfl
@[simp] theorem State.transferred_events (q : BusRequest) (r : BusResult) (s : State) : (s.transferred q r).events = s.events := rfl
@[simp] theorem State.transferred_unitPort (q : BusRequest) (r : BusResult) (s : State) : (s.transferred q r).unitPort = s.unitPort := rfl
@[simp] theorem State.transferred_busAnswers (q : BusRequest) (r : BusResult) (s : State) : (s.transferred q r).busAnswers = s.busAnswers.tail := rfl
@[simp] theorem State.transferred_transfers (q : BusRequest) (r : BusResult) (s : State) : (s.transferred q r).transfers = s.transfers + 1 := rfl
@[simp] theorem State.transferred_trace (q : BusRequest) (r : BusResult) (s : State) : (s.transferred q r).trace = s.trace ++ [.bus q r] := rfl
@[simp] theorem State.notify_params (m : Sample) (s : State) : (s.notify m).params = s.params := rfl
@[simp] theorem State.notify_regs (m : Sample) (s : State) : (s.notify m).regs = s.regs := rfl
@[simp] theorem State.notify_events (m : Sample) (s : State) : (s.notify m).events = s.events := rfl
@[simp] theorem State.notify_unitPort (m : Sample) (s : State) : (s.notify m).unitPort = s.unitPort := rfl
@[simp] theorem State.notify_busAnswers (m : Sample) (s : State) : (s.notify m).busAnswers = s.busAnswers := rfl
@[simp] theorem State.notify_transfers (m : Sample) (s : State) : (s.notify m).transfers = s.transfers := rfl
@[simp] theorem State.notify_trace (m : Sample) (s : State) : (s.notify m).trace = s.trace ++ [.notify m.encode] := rfl

/-! ### Telling the initiator: only the trace grows, by one output -/

/-- The output `finish` adds. -/
def finishOutput (who : Initiator) (result : BusResult) : Output :=
  match who with
  | .host => .respond .ok 0#32 none
  | .event o => .eventStatus o .ok none
  | .caller => .unitReturn result

/-- The output `raiseTransport` adds. -/
def errorOutput (who : Initiator) (e : ErrInfo) : Output :=
  match who with
  | .host => .respond .errTransport 0#32 (some e)
  | .event o => .eventStatus o .errTransport (some e)
  | .caller => .unitReturn (.err e)

theorem State.finish_eq_emit (who : Initiator) (r : BusResult) (s : State) :
    s.finish who r = s.emit (finishOutput who r) := by
  cases who <;> rfl

theorem State.raiseTransport_eq_emit (who : Initiator) (e : ErrInfo) (s : State) :
    s.raiseTransport who e = s.emit (errorOutput who e) := by
  cases who <;> rfl

@[simp] theorem State.finish_params (who : Initiator) (r : BusResult) (s : State) : (s.finish who r).params = s.params := by cases who <;> rfl
@[simp] theorem State.finish_regs (who : Initiator) (r : BusResult) (s : State) : (s.finish who r).regs = s.regs := by cases who <;> rfl
@[simp] theorem State.finish_events (who : Initiator) (r : BusResult) (s : State) : (s.finish who r).events = s.events := by cases who <;> rfl
@[simp] theorem State.finish_unitPort (who : Initiator) (r : BusResult) (s : State) : (s.finish who r).unitPort = s.unitPort := by cases who <;> rfl
@[simp] theorem State.finish_busAnswers (who : Initiator) (r : BusResult) (s : State) : (s.finish who r).busAnswers = s.busAnswers := by cases who <;> rfl
@[simp] theorem State.finish_transfers (who : Initiator) (r : BusResult) (s : State) : (s.finish who r).transfers = s.transfers := by cases who <;> rfl
@[simp] theorem State.finish_trace (who : Initiator) (r : BusResult) (s : State) : (s.finish who r).trace = s.trace ++ [finishOutput who r] := by cases who <;> rfl
@[simp] theorem State.raiseTransport_params (who : Initiator) (e : ErrInfo) (s : State) : (s.raiseTransport who e).params = s.params := by cases who <;> rfl
@[simp] theorem State.raiseTransport_regs (who : Initiator) (e : ErrInfo) (s : State) : (s.raiseTransport who e).regs = s.regs := by cases who <;> rfl
@[simp] theorem State.raiseTransport_events (who : Initiator) (e : ErrInfo) (s : State) : (s.raiseTransport who e).events = s.events := by cases who <;> rfl
@[simp] theorem State.raiseTransport_unitPort (who : Initiator) (e : ErrInfo) (s : State) : (s.raiseTransport who e).unitPort = s.unitPort := by cases who <;> rfl
@[simp] theorem State.raiseTransport_busAnswers (who : Initiator) (e : ErrInfo) (s : State) : (s.raiseTransport who e).busAnswers = s.busAnswers := by cases who <;> rfl
@[simp] theorem State.raiseTransport_transfers (who : Initiator) (e : ErrInfo) (s : State) : (s.raiseTransport who e).transfers = s.transfers := by cases who <;> rfl
@[simp] theorem State.raiseTransport_trace (who : Initiator) (e : ErrInfo) (s : State) : (s.raiseTransport who e).trace = s.trace ++ [errorOutput who e] := by cases who <;> rfl

/-! ### Steps of the meanings -/

@[simp] theorem State.stopIfArmed_params (s : State) : (s.stopIfArmed).params = s.params := by unfold State.stopIfArmed; split <;> simp_all
@[simp] theorem State.stopIfArmed_regs (s : State) : (s.stopIfArmed).regs = s.regs := by unfold State.stopIfArmed; split <;> simp_all
@[simp] theorem State.stopIfArmed_events (s : State) : (s.stopIfArmed).events = s.events := by unfold State.stopIfArmed; split <;> simp_all
@[simp] theorem State.stopIfArmed_unitPort (s : State) : (s.stopIfArmed).unitPort = s.unitPort := by unfold State.stopIfArmed; split <;> simp_all
@[simp] theorem State.stopIfArmed_busAnswers (s : State) : (s.stopIfArmed).busAnswers = s.busAnswers := by unfold State.stopIfArmed; split <;> simp_all
@[simp] theorem State.stopIfArmed_transfers (s : State) : (s.stopIfArmed).transfers = s.transfers := by unfold State.stopIfArmed; split <;> simp_all
@[simp] theorem State.stopIfArmed_trace (s : State) : (s.stopIfArmed).trace = s.trace ++ if s.regs.armed then [.timerStop] else [] := by unfold State.stopIfArmed; split <;> simp_all
@[simp] theorem State.deliverBlock_params (b : List Byte) (s : State) : (s.deliverBlock b).params = s.params := by unfold State.deliverBlock; split <;> simp_all
@[simp] theorem State.deliverBlock_regs (b : List Byte) (s : State) : (s.deliverBlock b).regs = s.regs := by unfold State.deliverBlock; split <;> simp_all
@[simp] theorem State.deliverBlock_events (b : List Byte) (s : State) : (s.deliverBlock b).events = s.events := by unfold State.deliverBlock; split <;> simp_all
@[simp] theorem State.deliverBlock_unitPort (b : List Byte) (s : State) : (s.deliverBlock b).unitPort = s.unitPort := by unfold State.deliverBlock; split <;> simp_all
@[simp] theorem State.deliverBlock_busAnswers (b : List Byte) (s : State) : (s.deliverBlock b).busAnswers = s.busAnswers := by unfold State.deliverBlock; split <;> simp_all
@[simp] theorem State.deliverBlock_transfers (b : List Byte) (s : State) : (s.deliverBlock b).transfers = s.transfers := by unfold State.deliverBlock; split <;> simp_all
@[simp] theorem State.deliverBlock_trace (b : List Byte) (s : State) : (s.deliverBlock b).trace = s.trace ++ if validate (decodeBlock b) then [.notify (sampleOf s.params.atanx (decodeBlock b)).encode] else [] := by unfold State.deliverBlock; split <;> simp_all

/-! ### The register record -/

@[simp] theorem Regs.requested_ctrlState (r : Regs) : r.requested.ctrlState = if r.ctrlState = .idle then .awaitingSingle else r.ctrlState := rfl
@[simp] theorem Regs.requested_armed (r : Regs) : r.requested.armed = r.armed := rfl
@[simp] theorem Regs.requested_interval (r : Regs) : r.requested.interval = r.interval := rfl
@[simp] theorem Regs.requested_gainSet (r : Regs) : r.requested.gainSet = r.gainSet := rfl
@[simp] theorem Regs.requested_gain (r : Regs) : r.requested.gain = r.gain := rfl
@[simp] theorem Regs.requested_lastModeValid (r : Regs) : r.requested.lastModeValid = true := rfl
@[simp] theorem Regs.requested_lastMode (r : Regs) : r.requested.lastMode = .singleShot := rfl
@[simp] theorem Regs.acquired_ctrlState (r : Regs) : r.acquired.ctrlState = if r.ctrlState = .awaitingSingle then .idle else r.ctrlState := rfl
@[simp] theorem Regs.acquired_armed (r : Regs) : r.acquired.armed = r.armed := rfl
@[simp] theorem Regs.acquired_interval (r : Regs) : r.acquired.interval = r.interval := rfl
@[simp] theorem Regs.acquired_gainSet (r : Regs) : r.acquired.gainSet = r.gainSet := rfl
@[simp] theorem Regs.acquired_gain (r : Regs) : r.acquired.gain = r.gain := rfl
@[simp] theorem Regs.acquired_lastModeValid (r : Regs) : r.acquired.lastModeValid = r.lastModeValid := rfl
@[simp] theorem Regs.acquired_lastMode (r : Regs) : r.acquired.lastMode = r.lastMode := rfl

end Sys2Proof.Machine
end

