-- ==== Sys2Proof/Laws/Ops.lean ====
section
/-! SUPPORT. What each shared operation can do, said once: one bus transfer, the unit's three transfers, the request, and one step. -/

namespace Sys2Proof.Machine

/-! ### One bus transfer -/

/-- A hang is the one way a transfer has no answer. -/
theorem busReply_eq_none {n : Nat} {s : State} : s.busReply n = none ↔ s.Hung := by
  unfold State.busReply State.Hung
  split <;> simp_all

/-- A completed answer to a transfer reading `n` bytes has exactly `n` bytes (40_register_protocol R122). -/
theorem busReply_ok_length {n : Nat} {s : State} {bytes : List Byte} (h : s.busReply n = some (.ok bytes)) :
    bytes.length = n := by
  have key : ∀ {w r}, fitLength n w r = .ok bytes → bytes.length = n := by
    intro w r h
    cases r with
    | ok b =>
      by_cases hb : b.length = n
      · simp only [fitLength, if_pos hb, BusResult.ok.injEq] at h
        exact h ▸ hb
      · simp [fitLength, hb] at h
    | err e => simp [fitLength] at h
  unfold State.busReply at h
  split at h
  · exact key (Option.some.inj h)
  · exact key (Option.some.inj h)
  · simp at h

theorem withTransfer_ok {who : Initiator} {q : BusRequest} {s : State} {go : List Byte → State → State} {bytes : List Byte}
    (h : s.busReply (readCount q) = some (.ok bytes)) :
    withTransfer who q s go = .next (go bytes (s.transferred q (.ok bytes))) := by
  simp [withTransfer, h]

theorem withTransfer_err {who : Initiator} {q : BusRequest} {s : State} {go : List Byte → State → State} {e : ErrInfo}
    (h : s.busReply (readCount q) = some (.err e)) :
    withTransfer who q s go = .next ((s.transferred q (.err e)).raiseTransport who e) := by
  simp [withTransfer, h]

theorem withTransfer_hang {who : Initiator} {q : BusRequest} {s : State} {go : List Byte → State → State}
    (h : s.busReply (readCount q) = none) : withTransfer who q s go = .fault .busHang := by
  simp [withTransfer, h]

/-- All a transfer can do: it goes on with the bytes read, or raises the error, or hangs. -/
theorem withTransfer_cases (who : Initiator) (q : BusRequest) (s : State) (go : List Byte → State → State) :
    (∃ bytes, s.busReply (readCount q) = some (.ok bytes) ∧
      withTransfer who q s go = .next (go bytes (s.transferred q (.ok bytes)))) ∨
    (∃ e, s.busReply (readCount q) = some (.err e) ∧
      withTransfer who q s go = .next ((s.transferred q (.err e)).raiseTransport who e)) ∨
    (s.busReply (readCount q) = none ∧ withTransfer who q s go = .fault .busHang) := by
  cases h : s.busReply (readCount q) with
  | none => exact .inr (.inr ⟨rfl, withTransfer_hang h⟩)
  | some r =>
    cases r with
    | ok bytes => exact .inl ⟨bytes, rfl, withTransfer_ok h⟩
    | err e => exact .inr (.inl ⟨e, rfl, withTransfer_err h⟩)

@[simp] theorem readCount_write (b : List Byte) : readCount (.write b) = 0 := rfl

@[simp] theorem readCount_writeRead (b : List Byte) (n : Nat) : readCount (.writeRead b n) = n := rfl

/-- The transfer of a request (43_sampling_controller R191). -/
def modeWrite (p : Params) : BusRequest := .write [regAddr p .mode, modeCode p .singleShot]

/-- A request is one mode write, then the registers of R191 and a report. -/
theorem request_eq (who : Initiator) (s : State) :
    request who s = withTransfer who (modeWrite s.params) s
      (fun _ s' => (s'.setRegs s'.regs.requested).finish who (.ok [])) := rfl

/-! ### Answers and the registers -/

/-- What the bus answers does not depend on registers, events, or the trace. -/
theorem busReply_congr {n : Nat} {s t : State} (ha : s.busAnswers = t.busAnswers) (ht : s.transfers = t.transfers) :
    s.busReply n = t.busReply n := by
  simp [State.busReply, ha, ht]

@[simp] theorem busReply_deliver (n : Nat) (e : Event) (s : State) : (s.deliver e).busReply n = s.busReply n := rfl

/-! ### One step -/

theorem step_unit {s : State} {r : BusRequest} (h : s.unitPort = some r) :
    step s = runCode (.bus r) { s with unitPort := none } := by
  simp [step, State.takeWork, h]

theorem step_event {s : State} {e : Event} {rest : List Event} (hp : s.unitPort = none) (h : s.events = e :: rest) :
    step s = runCode (.event e) { s with events := rest } := by
  simp [step, State.takeWork, hp, h]

theorem step_wait {s : State} (hp : s.unitPort = none) (h : s.events = []) : step s = .next s := by
  simp [step, State.takeWork, hp, h]

theorem runCode_ok {c : Code} {i : Instr} {s : State} (h : decode s.params c = .ok i) : runCode c s = exec i s := by
  simp [runCode, h]

theorem runCode_illegal {e : Event} {why : DecodeError} {s : State} (h : decode s.params (.event e) = .error why) :
    runCode (.event e) s = .next s.illegal := by
  simp [runCode, h]

theorem runCode_unknown {r : BusRequest} {why : DecodeError} {s : State} (h : decode s.params (.bus r) = .error why) :
    runCode (.bus r) s = .refused (.unknownTransfer why) := by
  simp [runCode, h]

/-- All a step can do. -/
theorem step_cases (s : State) :
    (∃ r i, s.unitPort = some r ∧ decodeBus s.params r = .ok i ∧ step s = exec i { s with unitPort := none }) ∨
    (∃ r why, s.unitPort = some r ∧ decodeBus s.params r = .error why ∧ step s = .refused (.unknownTransfer why)) ∨
    (∃ e rest i, s.unitPort = none ∧ s.events = e :: rest ∧ decodeEvent e = .ok i ∧
      step s = exec i { s with events := rest }) ∨
    (∃ e rest why, s.unitPort = none ∧ s.events = e :: rest ∧ decodeEvent e = .error why ∧
      step s = .next (State.illegal { s with events := rest })) ∨
    (s.unitPort = none ∧ s.events = [] ∧ step s = .next s) := by
  obtain hp | ⟨r, hp⟩ : s.unitPort = none ∨ ∃ r, s.unitPort = some r := by cases s.unitPort <;> simp
  · obtain he | ⟨e, rest, he⟩ : s.events = [] ∨ ∃ e rest, s.events = e :: rest := by cases s.events <;> simp
    · exact .inr (.inr (.inr (.inr ⟨hp, he, step_wait hp he⟩)))
    · cases hd : decodeEvent e with
      | ok i =>
        exact .inr (.inr (.inl ⟨e, rest, i, hp, he, hd, by rw [step_event hp he, runCode_ok (c := .event e) (s := { s with events := rest }) hd]⟩))
      | error why =>
        exact .inr (.inr (.inr (.inl ⟨e, rest, why, hp, he, hd, by rw [step_event hp he, runCode_illegal (s := { s with events := rest }) hd]⟩)))
  · cases hd : decodeBus s.params r with
    | ok i => exact .inl ⟨r, i, hp, hd, by rw [step_unit hp, runCode_ok (c := .bus r) (s := { s with unitPort := none }) hd]⟩
    | error why => exact .inr (.inl ⟨r, why, hp, hd, by rw [step_unit hp, runCode_unknown (s := { s with unitPort := none }) hd]⟩)

end Sys2Proof.Machine
end

