-- ==== Sys2Proof/Laws/Exec.lean ====
section
/-! SUPPORT. Each instruction that makes a transfer, as one transfer with what follows it, so that `withTransfer_cases` applies; and the
others as the update they make. -/

namespace Sys2Proof.Machine

theorem exec_req (s : State) : exec .req s =
    withTransfer .host (modeWrite s.params) s (fun _ s' => (s'.setRegs s'.regs.requested).finish .host (.ok [])) := rfl

theorem exec_setgain (g : GainIndex) (s : State) : exec (.setgain g) s =
    withTransfer .host (.write [regAddr s.params s.params.gainReg, gainCode s.params g]) s
      (fun _ s' => (s'.setRegs { s'.regs with gainSet := true, gain := g }).finish .host (.ok [])) := rfl

theorem exec_tick_continuous {s : State} (h : s.regs.ctrlState = .continuous) : exec .tick s =
    withTransfer (.event .tick) (modeWrite s.params) s
      (fun _ s' => (s'.setRegs s'.regs.requested).finish (.event .tick) (.ok [])) := by
  simp only [exec, execTick, h, if_true]
  rfl

theorem exec_tick_stopped {s : State} (h : s.regs.ctrlState ≠ .continuous) : exec .tick s =
    .next ((s.emit .timerStop).finish (.event .tick) (.ok [])) := by
  simp only [exec, execTick, h, if_false]

theorem exec_drdy (s : State) : exec .drdy s =
    withTransfer (.event .drdy) (.writeRead [regAddr s.params .dataXMsb] 6) s
      (fun bytes s' => ((s'.setRegs s'.regs.acquired).deliverBlock bytes).finish (.event .drdy) (.ok [])) := rfl

theorem exec_wrreg (reg : RegName) (v : Byte) (s : State) : exec (.wrreg reg v) s =
    withTransfer .caller (.write [regAddr s.params reg, v]) s (fun _ => State.finish .caller (.ok [])) := rfl

theorem exec_rdbyte (reg : RegName) (s : State) : exec (.rdbyte reg) s =
    withTransfer .caller (.writeRead [regAddr s.params reg] 1) s (fun b => State.finish .caller (.ok [b.getD 0 0])) := rfl

theorem exec_rdblk {n : Nat} (h : 1 ≤ n ∧ n ≤ 255) (reg : RegName) (s : State) : exec (.rdblk reg n) s =
    withTransfer .caller (.writeRead [regAddr s.params reg] n) s (fun b => State.finish .caller (.ok b)) := by
  simp only [exec, execRdblk, Config.blockMax, h, and_self, if_true]
  rfl

theorem exec_rdblk_refused {n : Nat} (h : ¬ (1 ≤ n ∧ n ≤ 255)) (reg : RegName) (s : State) :
    exec (.rdblk reg n) s = .refused (.blockLength n) := by
  simp only [exec, execRdblk, Config.blockMax, h, if_false]

theorem exec_start (s : State) : exec .start s =
    .next (((s.setRegs { s.regs with ctrlState := .continuous, armed := true }).emit
      (.timerStart s.regs.interval)).finish .host (.ok [])) := rfl

theorem exec_stop (s : State) : exec .stop s =
    .next ((s.stopIfArmed.setRegs { s.regs with armed := false, ctrlState := .idle }).finish .host (.ok [])) := rfl

theorem exec_setivl_armed {s : State} (h : s.regs.armed = true) (t : Interval) : exec (.setivl t) s =
    .next (((s.stopIfArmed.setRegs { s.regs with interval := t }).emit (.timerStart t)).finish .host (.ok [])) := by
  simp only [exec, execSetivl, h, if_true]

theorem exec_setivl_idle {s : State} (h : s.regs.armed = false) (t : Interval) : exec (.setivl t) s =
    .next ((s.stopIfArmed.setRegs { s.regs with interval := t }).finish .host (.ok [])) := by
  simp [exec, execSetivl, h]

theorem exec_getivl (s : State) : exec .getivl s =
    .next (s.emit (.respond .ok (intervalData s.regs.interval) none)) := rfl

end Sys2Proof.Machine
end

