-- ==== Sys2Proof/Laws/Effect.lean ====
section
/-! SUPPORT. What an instruction can do, said once: the registers it leaves and the outputs it adds, case by case. A proof about every
instruction inverts `exec_effect` and looks at these cases; it need not unfold a meaning. -/

namespace Sys2Proof.Machine

/-- `Effect i s r new`: when `i` completes from `s`, it may leave the registers `r` having added the outputs `new`. -/
inductive Effect : Instr → State → Regs → List Output → Prop where
  | reqOk {s : State} {b : List Byte} (h : s.busReply 0 = some (.ok b)) :
      Effect .req s s.regs.requested [.bus (modeWrite s.params) (.ok b), .respond .ok 0#32 none]
  | reqErr {s : State} {e : ErrInfo} (h : s.busReply 0 = some (.err e)) :
      Effect .req s s.regs [.bus (modeWrite s.params) (.err e), .respond .errTransport 0#32 (some e)]
  | gainOk {s : State} {g : GainIndex} {b : List Byte} (h : s.busReply 0 = some (.ok b)) :
      Effect (.setgain g) s { s.regs with gainSet := true, gain := g }
        [.bus (.write [regAddr s.params s.params.gainReg, gainCode s.params g]) (.ok b), .respond .ok 0#32 none]
  | gainErr {s : State} {g : GainIndex} {e : ErrInfo} (h : s.busReply 0 = some (.err e)) :
      Effect (.setgain g) s s.regs
        [.bus (.write [regAddr s.params s.params.gainReg, gainCode s.params g]) (.err e), .respond .errTransport 0#32 (some e)]
  | start {s : State} :
      Effect .start s { s.regs with ctrlState := .continuous, armed := true }
        [.timerStart s.regs.interval, .respond .ok 0#32 none]
  | stopArmed {s : State} (h : s.regs.armed = true) :
      Effect .stop s { s.regs with armed := false, ctrlState := .idle } [.timerStop, .respond .ok 0#32 none]
  | stopIdle {s : State} (h : s.regs.armed = false) :
      Effect .stop s { s.regs with armed := false, ctrlState := .idle } [.respond .ok 0#32 none]
  | setivlArmed {s : State} {t : Interval} (h : s.regs.armed = true) :
      Effect (.setivl t) s { s.regs with interval := t } [.timerStop, .timerStart t, .respond .ok 0#32 none]
  | setivlIdle {s : State} {t : Interval} (h : s.regs.armed = false) :
      Effect (.setivl t) s { s.regs with interval := t } [.respond .ok 0#32 none]
  | getivl {s : State} :
      Effect .getivl s s.regs [.respond .ok (intervalData s.regs.interval) none]
  | tickOk {s : State} {b : List Byte} (hc : s.regs.ctrlState = .continuous) (h : s.busReply 0 = some (.ok b)) :
      Effect .tick s s.regs.requested [.bus (modeWrite s.params) (.ok b), .eventStatus .tick .ok none]
  | tickErr {s : State} {e : ErrInfo} (hc : s.regs.ctrlState = .continuous) (h : s.busReply 0 = some (.err e)) :
      Effect .tick s s.regs [.bus (modeWrite s.params) (.err e), .eventStatus .tick .errTransport (some e)]
  | tickStopped {s : State} (hc : s.regs.ctrlState ≠ .continuous) :
      Effect .tick s s.regs [.timerStop, .eventStatus .tick .ok none]
  | drdyValid {s : State} {b : List Byte} (h : s.busReply 6 = some (.ok b)) (hv : validate (decodeBlock b) = true) :
      Effect .drdy s s.regs.acquired
        [.bus (.writeRead [regAddr s.params .dataXMsb] 6) (.ok b), .notify (sampleOf s.params.atanx (decodeBlock b)).encode,
          .eventStatus .drdy .ok none]
  | drdyInvalid {s : State} {b : List Byte} (h : s.busReply 6 = some (.ok b)) (hv : validate (decodeBlock b) = false) :
      Effect .drdy s s.regs.acquired
        [.bus (.writeRead [regAddr s.params .dataXMsb] 6) (.ok b), .eventStatus .drdy .ok none]
  | drdyErr {s : State} {e : ErrInfo} (h : s.busReply 6 = some (.err e)) :
      Effect .drdy s s.regs
        [.bus (.writeRead [regAddr s.params .dataXMsb] 6) (.err e), .eventStatus .drdy .errTransport (some e)]
  | wrregOk {s : State} {reg : RegName} {v : Byte} {b : List Byte} (h : s.busReply 0 = some (.ok b)) :
      Effect (.wrreg reg v) s s.regs [.bus (.write [regAddr s.params reg, v]) (.ok b), .unitReturn (.ok [])]
  | wrregErr {s : State} {reg : RegName} {v : Byte} {e : ErrInfo} (h : s.busReply 0 = some (.err e)) :
      Effect (.wrreg reg v) s s.regs [.bus (.write [regAddr s.params reg, v]) (.err e), .unitReturn (.err e)]
  | rdbyteOk {s : State} {reg : RegName} {b : List Byte} (h : s.busReply 1 = some (.ok b)) :
      Effect (.rdbyte reg) s s.regs
        [.bus (.writeRead [regAddr s.params reg] 1) (.ok b), .unitReturn (.ok [b.getD 0 0])]
  | rdbyteErr {s : State} {reg : RegName} {e : ErrInfo} (h : s.busReply 1 = some (.err e)) :
      Effect (.rdbyte reg) s s.regs [.bus (.writeRead [regAddr s.params reg] 1) (.err e), .unitReturn (.err e)]
  | rdblkOk {s : State} {reg : RegName} {n : Nat} {b : List Byte} (hn : 1 ≤ n ∧ n ≤ 255) (h : s.busReply n = some (.ok b)) :
      Effect (.rdblk reg n) s s.regs [.bus (.writeRead [regAddr s.params reg] n) (.ok b), .unitReturn (.ok b)]
  | rdblkErr {s : State} {reg : RegName} {n : Nat} {e : ErrInfo} (hn : 1 ≤ n ∧ n ≤ 255) (h : s.busReply n = some (.err e)) :
      Effect (.rdblk reg n) s s.regs [.bus (.writeRead [regAddr s.params reg] n) (.err e), .unitReturn (.err e)]

/-- A transfer that completes: the two ways it can, with what the rest of the step adds. -/
theorem withTransfer_next {who : Initiator} {q : BusRequest} {s t : State} {go : List Byte → State → State}
    (h : withTransfer who q s go = .next t) :
    (∃ b, s.busReply (readCount q) = some (.ok b) ∧ t = go b (s.transferred q (.ok b))) ∨
    (∃ e, s.busReply (readCount q) = some (.err e) ∧ t.regs = s.regs ∧ t.params = s.params ∧ t.events = s.events ∧ t.unitPort = s.unitPort ∧
      t.trace = s.trace ++ [.bus q (.err e), errorOutput who e]) := by
  obtain ⟨b, hb, hw⟩ | ⟨e, he, hw⟩ | ⟨-, hw⟩ := withTransfer_cases who q s go
  · rw [hw] at h; cases h; exact .inl ⟨b, hb, rfl⟩
  · rw [hw] at h; cases h; exact .inr ⟨e, he, by simp, by simp, by simp, by simp, by simp⟩
  · rw [hw] at h; cases h

/-- An instruction that completes leaves the parameters, the event stream and the unit's input alone, adds to the trace, and has one of
its effects. -/
theorem exec_effect {i : Instr} {s t : State} (h : exec i s = .next t) :
    t.params = s.params ∧ t.events = s.events ∧ t.unitPort = s.unitPort ∧
    ∃ new, t.trace = s.trace ++ new ∧ Effect i s t.regs new := by
  cases i with
  | req =>
    rw [exec_req] at h
    obtain ⟨b, hb, rfl⟩ | ⟨e, he, hr, hp, hev, hu, ht⟩ := withTransfer_next h
    · exact ⟨by simp, by simp, by simp, _, by simp [finishOutput], .reqOk hb⟩
    · exact ⟨hp, hev, hu, _, ht, hr ▸ .reqErr he⟩
  | setgain g =>
    rw [exec_setgain] at h
    obtain ⟨b, hb, rfl⟩ | ⟨e, he, hr, hp, hev, hu, ht⟩ := withTransfer_next h
    · exact ⟨by simp, by simp, by simp, _, by simp [finishOutput], .gainOk hb⟩
    · exact ⟨hp, hev, hu, _, ht, hr ▸ .gainErr he⟩
  | start =>
    rw [exec_start] at h; cases h
    exact ⟨by simp, by simp, by simp, _, by simp [finishOutput], .start⟩
  | stop =>
    rw [exec_stop] at h; cases h
    cases ha : s.regs.armed with
    | true => exact ⟨by simp, by simp, by simp, _, by simp [finishOutput, ha], .stopArmed ha⟩
    | false => exact ⟨by simp, by simp, by simp, _, by simp [finishOutput, ha], .stopIdle ha⟩
  | setivl v =>
    cases ha : s.regs.armed with
    | true =>
      rw [exec_setivl_armed ha] at h; cases h
      exact ⟨by simp, by simp, by simp, _, by simp [finishOutput, ha], .setivlArmed ha⟩
    | false =>
      rw [exec_setivl_idle ha] at h; cases h
      exact ⟨by simp, by simp, by simp, _, by simp [finishOutput, ha], .setivlIdle ha⟩
  | getivl =>
    rw [exec_getivl] at h; cases h
    exact ⟨rfl, rfl, rfl, _, rfl, .getivl⟩
  | tick =>
    by_cases hc : s.regs.ctrlState = .continuous
    · rw [exec_tick_continuous hc] at h
      obtain ⟨b, hb, rfl⟩ | ⟨e, he, hr, hp, hev, hu, ht⟩ := withTransfer_next h
      · exact ⟨by simp, by simp, by simp, _, by simp [finishOutput], .tickOk hc hb⟩
      · exact ⟨hp, hev, hu, _, ht, hr ▸ .tickErr hc he⟩
    · rw [exec_tick_stopped hc] at h; cases h
      exact ⟨by simp, by simp, by simp, _, by simp [finishOutput], .tickStopped hc⟩
  | drdy =>
    rw [exec_drdy] at h
    obtain ⟨b, hb, rfl⟩ | ⟨e, he, hr, hp, hev, hu, ht⟩ := withTransfer_next h
    · cases hv : validate (decodeBlock b) with
      | true => exact ⟨by simp, by simp, by simp, _, by simp [finishOutput, hv]; rfl, by simpa using .drdyValid hb hv⟩
      | false => exact ⟨by simp, by simp, by simp, _, by simp [finishOutput, hv]; rfl, by simpa using .drdyInvalid hb hv⟩
    · exact ⟨hp, hev, hu, _, ht, hr ▸ .drdyErr he⟩
  | wrreg r v =>
    rw [exec_wrreg] at h
    obtain ⟨b, hb, rfl⟩ | ⟨e, he, hr, hp, hev, hu, ht⟩ := withTransfer_next h
    · exact ⟨by simp, by simp, by simp, _, by simp [finishOutput], .wrregOk hb⟩
    · exact ⟨hp, hev, hu, _, ht, hr ▸ .wrregErr he⟩
  | rdbyte r =>
    rw [exec_rdbyte] at h
    obtain ⟨b, hb, rfl⟩ | ⟨e, he, hr, hp, hev, hu, ht⟩ := withTransfer_next h
    · exact ⟨by simp, by simp, by simp, _, by simp [finishOutput], .rdbyteOk hb⟩
    · exact ⟨hp, hev, hu, _, ht, hr ▸ .rdbyteErr he⟩
  | rdblk r n =>
    by_cases hn : 1 ≤ n ∧ n ≤ 255
    · rw [exec_rdblk hn] at h
      obtain ⟨b, hb, rfl⟩ | ⟨e, he, hr, hp, hev, hu, ht⟩ := withTransfer_next h
      · exact ⟨by simp, by simp, by simp, _, by simp [finishOutput], .rdblkOk hn hb⟩
      · exact ⟨hp, hev, hu, _, ht, hr ▸ .rdblkErr hn he⟩
    · rw [exec_rdblk_refused hn] at h; cases h

end Sys2Proof.Machine
end

