-- ==== Sys2Proof/Laws/Float64.lean ====
section
/-! SUPPORT. What the binary64 operations rest on, each fact once: patterns and their values, and that the two rounding operations round
once to nearest, ties to even. -/

namespace Sys2Proof

open Machine

theorem F64.magnitude_lt (x : F64) : x.magnitude < 2 ^ 63 := Nat.mod_lt _ (by decide)

theorem F64.ofMagnitude_bits {neg : Bool} {m : Nat} (h : m < 2 ^ 63) :
    (F64.ofMagnitude neg m).bits.toNat = (if neg then 2 ^ 63 else 0) + m := by
  simp only [F64.ofMagnitude, BitVec.toNat_ofNat]
  split <;> omega

theorem F64.ofMagnitude_magnitude {neg : Bool} {m : Nat} (h : m < 2 ^ 63) : (F64.ofMagnitude neg m).magnitude = m := by
  rw [F64.magnitude, F64.ofMagnitude_bits h]
  split <;> omega

theorem F64.ofMagnitude_sign {neg : Bool} {m : Nat} (h : m < 2 ^ 63) : (F64.ofMagnitude neg m).sign = neg := by
  rw [F64.sign, F64.ofMagnitude_bits h]
  cases neg <;> simp
  omega

theorem F64.ofMagnitude_sign_magnitude (x : F64) : F64.ofMagnitude x.sign x.magnitude = x := by
  have hx := x.bits.isLt
  rcases x with ⟨b⟩
  simp only [F64.ofMagnitude, F64.sign, F64.magnitude, F64.mk.injEq]
  rw [← BitVec.toNat_inj, BitVec.toNat_ofNat]
  simp only [decide_eq_true_eq] at *
  split <;> omega

theorem F64.neg_sign (x : F64) : x.neg.sign = !x.sign := by
  rw [F64.neg, F64.ofMagnitude_sign x.magnitude_lt]

theorem F64.neg_magnitude (x : F64) : x.neg.magnitude = x.magnitude := by
  rw [F64.neg, F64.ofMagnitude_magnitude x.magnitude_lt]

/-- The value of a magnitude, by its exponent and fraction fields. -/
def F64.magnitudeValue (m : Nat) : ℚ :=
  if m / 2 ^ 52 = 0 then (m : ℚ) * 2 ^ (-1074 : ℤ) else ((2 ^ 52 + m % 2 ^ 52 : Nat) : ℚ) * 2 ^ ((m / 2 ^ 52 : Nat) - 1075 : ℤ)

theorem F64.toRat_eq {x : F64} (h : x.isFinite = true) :
    x.toRat = (if x.sign then -1 else 1) * F64.magnitudeValue x.magnitude := by
  have hm : x.magnitude < F64.infMagnitude := of_decide_eq_true h
  have h1 : x.magnitude / 2 ^ 52 ≠ 2047 := by
    simp only [F64.infMagnitude] at hm
    omega
  simp only [F64.toRat, F64.classify, h1, if_false, F64.magnitudeValue]
  by_cases h0 : x.magnitude / 2 ^ 52 = 0
  · have : x.magnitude % 2 ^ 52 = x.magnitude := Nat.mod_eq_of_lt (by omega)
    simp only [h0, if_true, signed, this]
    cases x.sign <;> simp
  · simp only [h0, if_false, signed]
    generalize x.magnitude % 2 ^ 52 = fr
    generalize x.magnitude / 2 ^ 52 = ex
    cases x.sign
    · simp
    · push_cast
      simp only [if_true]
      ring

/-- A finite pattern's class, and its value by it. -/
theorem F64.classify_finite {x : F64} (h : x.isFinite = true) :
    ∃ m e, x.classify = .fin x.sign m e ∧ x.toRat = (if x.sign then -1 else 1) * ((m : ℚ) * 2 ^ e) := by
  have hm : x.magnitude < F64.infMagnitude := of_decide_eq_true h
  have h1 : x.magnitude / 2 ^ 52 ≠ 2047 := by
    simp only [F64.infMagnitude] at hm
    omega
  have : ∃ m e, x.classify = .fin x.sign m e := by
    simp only [F64.classify, h1, if_false]
    split <;> exact ⟨_, _, rfl⟩
  obtain ⟨m, e, he⟩ := this
  refine ⟨m, e, he, ?_⟩
  simp only [F64.toRat, he, signed]
  cases x.sign <;> simp

/-- A magnitude built from a last place and a significand, the carry into the next binade included. -/
theorem F64.magnitudeValue_pack {k q : Nat} (hq : q ≤ 2 ^ 53) (hk : k = 0 ∨ 2 ^ 52 ≤ q) :
    F64.magnitudeValue (k * 2 ^ 52 + q) = (q : ℚ) * 2 ^ (k - 1074 : ℤ) := by
  unfold F64.magnitudeValue
  rcases Nat.lt_or_ge q (2 ^ 52) with h | h
  · have : k = 0 := by omega
    subst this
    rw [if_pos (by omega)]; simp
  · rcases Nat.lt_or_ge q (2 ^ 53) with h' | h'
    · have e1 : (k * 2 ^ 52 + q) / 2 ^ 52 = k + 1 := by omega
      have e2 : 2 ^ 52 + (k * 2 ^ 52 + q) % 2 ^ 52 = q := by omega
      rw [e1, e2, if_neg (by omega)]
      congr 2; push_cast; ring
    · have : q = 2 ^ 53 := by omega
      subst this
      have e1 : (k * 2 ^ 52 + 2 ^ 53) / 2 ^ 52 = k + 2 := by omega
      have e2 : 2 ^ 52 + (k * 2 ^ 52 + 2 ^ 53) % 2 ^ 52 = 2 ^ 52 := by omega
      rw [e1, e2, if_neg (by omega)]
      rw [show ((k + 2 : Nat) - 1075 : ℤ) = 1 + (k - 1074 : ℤ) by push_cast; ring, zpow_add₀ (by norm_num)]
      push_cast; ring

theorem F64.magnitudeValue_step (m : Nat) :
    F64.magnitudeValue (m + 1) = F64.magnitudeValue m + 2 ^ ((m / 2 ^ 52 - 1 : Nat) - 1074 : ℤ) := by
  obtain ⟨k, q, hm, hq, hk, he⟩ : ∃ k q, m = k * 2 ^ 52 + q ∧ q + 1 ≤ 2 ^ 53 ∧ (k = 0 ∨ 2 ^ 52 ≤ q) ∧ m / 2 ^ 52 - 1 = k := by
    refine ⟨m / 2 ^ 52 - 1, m - (m / 2 ^ 52 - 1) * 2 ^ 52, ?_, ?_, ?_, rfl⟩ <;> omega
  rw [he, hm, Nat.add_assoc, F64.magnitudeValue_pack hq (by omega), F64.magnitudeValue_pack (by omega) hk]
  push_cast; ring

theorem F64.magnitudeValue_strictMono : StrictMono F64.magnitudeValue :=
  strictMono_nat_of_lt_succ fun m => by
    rw [F64.magnitudeValue_step]
    have : (0 : ℚ) < 2 ^ ((m / 2 ^ 52 - 1 : Nat) - 1074 : ℤ) := zpow_pos (by norm_num) _
    linarith

theorem F64.magnitudeValue_zero : F64.magnitudeValue 0 = 0 := by simp [F64.magnitudeValue]

theorem F64.magnitudeValue_nonneg (m : Nat) : 0 ≤ F64.magnitudeValue m := by
  rw [← F64.magnitudeValue_zero]
  exact F64.magnitudeValue_strictMono.monotone (Nat.zero_le m)

/-- A magnitude no farther than half a step from `v` on either side is the nearest, a tie needing it even. -/
theorem F64.nearest_magnitude {M : Nat} {v : ℚ}
    (above : v - F64.magnitudeValue M ≤ F64.magnitudeValue (M + 1) - v)
    (aboveTie : v - F64.magnitudeValue M = F64.magnitudeValue (M + 1) - v → M % 2 = 0)
    (below : F64.magnitudeValue M ≤ v ∨ (F64.magnitudeValue M - v ≤ v - F64.magnitudeValue (M - 1) ∧
      (F64.magnitudeValue M - v = v - F64.magnitudeValue (M - 1) → M % 2 = 0)))
    {N : Nat} (hN : N ≠ M) :
    |v - F64.magnitudeValue M| < |v - F64.magnitudeValue N| ∨
      (|v - F64.magnitudeValue M| = |v - F64.magnitudeValue N| ∧ M % 2 = 0) := by
  have mono := F64.magnitudeValue_strictMono
  rcases Nat.lt_or_gt_of_ne hN with h | h
  · have h1 : F64.magnitudeValue N ≤ F64.magnitudeValue (M - 1) := mono.monotone (by omega)
    have h2 : F64.magnitudeValue N < F64.magnitudeValue M := mono h
    rcases le_or_gt (F64.magnitudeValue M) v with hv | hv
    · left
      rw [abs_of_nonneg (by linarith), abs_of_nonneg (by linarith)]
      linarith
    · obtain hb | ⟨hb, ht⟩ := below
      · linarith
      · rw [abs_of_neg (by linarith), abs_of_nonneg (by linarith)]
        rcases hb.lt_or_eq with hb | hb
        · left; linarith
        · rcases h1.lt_or_eq with h1 | h1
          · left; linarith
          · right; exact ⟨by linarith, ht hb⟩
  · have h1 : F64.magnitudeValue (M + 1) ≤ F64.magnitudeValue N := mono.monotone (by omega)
    have h2 : F64.magnitudeValue M < F64.magnitudeValue N := mono h
    rcases le_or_gt v (F64.magnitudeValue M) with hv | hv
    · left
      rw [abs_of_nonpos (by linarith), abs_of_nonpos (by linarith)]
      linarith
    · rw [abs_of_pos (by linarith), abs_of_nonpos (by linarith)]
      rcases above.lt_or_eq with hb | hb
      · left; linarith
      · rcases h1.lt_or_eq with h1 | h1
        · left; linarith
        · right; exact ⟨by linarith, aboveTie hb⟩

theorem sign_distance (s t : Bool) (a b : ℚ) :
    |(if s then -1 else 1) * a - (if t then -1 else 1) * b| = if s = t then |a - b| else |a + b| := by
  cases s <;> cases t
  · simp
  · simp
  · simp only [if_true, Bool.false_eq_true, if_false]
    rw [← abs_neg (a + b)]
    congr 1
    ring
  · simp only [if_true]
    rw [← abs_neg (a - b)]
    congr 1
    ring

theorem overflowBound_eq : overflowBound = (2 ^ 53 - 1 / 2) * 2 ^ (971 : ℤ) := by
  rw [overflowBound, show (1024 : ℕ) = 54 + 970 from rfl, pow_add, show (971 : ℤ) = 1 + (970 : ℕ) from rfl,
    zpow_add₀ (by norm_num), zpow_natCast]
  generalize (2 : ℚ) ^ 970 = p
  norm_num
  ring

/-- A last place and a significand within half a unit of `v / 2^(k - 1074)`, ties even, are the rounding of `v`. -/
theorem F64.pack_roundsTo {neg : Bool} {v : ℚ} {k q : Nat} (hv : 0 < v)
    (near : |v - q * 2 ^ (k - 1074 : ℤ)| ≤ 2 ^ (k - 1074 : ℤ) / 2)
    (tie : |v - q * 2 ^ (k - 1074 : ℤ)| = 2 ^ (k - 1074 : ℤ) / 2 → q % 2 = 0)
    (lt : v < 2 ^ 53 * 2 ^ (k - 1074 : ℤ)) (ge : k = 0 ∨ 2 ^ 52 * 2 ^ (k - 1074 : ℤ) ≤ v) :
    RoundsTo ((if neg then -1 else 1) * v) (F64.ofMagnitude neg (min (k * 2 ^ 52 + q) F64.infMagnitude)) := by
  obtain ⟨u, hu, hu0⟩ : ∃ u : ℚ, u = 2 ^ (k - 1074 : ℤ) ∧ 0 < u := ⟨_, rfl, zpow_pos (by norm_num) _⟩
  rw [← hu] at near tie lt ge
  have near' := abs_le.1 near
  have hq : q ≤ 2 ^ 53 := by
    by_contra hc
    have : ((2 ^ 53 + 1 : Nat) : ℚ) ≤ q := by exact_mod_cast Nat.lt_of_not_le hc
    push_cast at this
    nlinarith
  have hk : k = 0 ∨ 2 ^ 52 ≤ q := by
    refine ge.imp_right fun ge => ?_
    by_contra hc
    have : (q : ℚ) + 1 ≤ (2 ^ 52 : Nat) := by exact_mod_cast Nat.lt_of_not_le hc
    push_cast at this
    nlinarith
  have hM : F64.magnitudeValue (k * 2 ^ 52 + q) = q * u := by rw [F64.magnitudeValue_pack hq hk, hu]
  have hs : |(if neg then -1 else 1 : ℚ) * v| = v := by
    cases neg <;> simp [abs_of_pos hv]
  have bound : v < overflowBound ↔ k * 2 ^ 52 + q < F64.infMagnitude := by
    obtain ⟨p, hp, hp0, hb⟩ : ∃ p : ℚ, p = 2 ^ (971 : ℤ) ∧ 0 < p ∧ overflowBound = (2 ^ 53 - 1 / 2) * p :=
      ⟨_, rfl, zpow_pos (by norm_num) _, overflowBound_eq⟩
    have hup : u = 2 ^ (k - 2045 : ℤ) * p := by
      rw [hu, hp, ← zpow_add₀ (by norm_num)]
      congr 1
      ring
    rw [hb]
    clear hp hb hM
    rcases Nat.lt_trichotomy k 2045 with h | h | h
    · have h2 : (2 : ℚ) ^ (k - 2045 : ℤ) ≤ 2 ^ (-1 : ℤ) := zpow_le_zpow_right₀ (by norm_num) (by omega)
      have h3 : u ≤ 2 ^ (-1 : ℤ) * p := by rw [hup]; exact mul_le_mul_of_nonneg_right h2 hp0.le
      rw [zpow_neg_one] at h3
      constructor
      · intro _; simp only [F64.infMagnitude]; omega
      · intro _; linarith
    · have : u = p := by rw [hup, h]; simp
      rw [← this]
      have hk : k ≠ 0 := by omega
      constructor
      · intro hlt
        have : q ≠ 2 ^ 53 := by
          rintro rfl
          push_cast at near'
          linarith
        simp only [F64.infMagnitude]; omega
      · intro hlt
        by_contra hge
        rw [not_lt] at hge
        have h1 : q ≤ 2 ^ 53 - 1 := by simp only [F64.infMagnitude] at hlt; omega
        have h2 : (2 ^ 53 - 1 : ℚ) ≤ q := le_of_mul_le_mul_right (by linarith) hu0
        have h4 : q = 2 ^ 53 - 1 := by
          have : ((2 ^ 53 : Nat) : ℚ) ≤ (q + 1 : Nat) := by push_cast; linarith
          have := Nat.cast_le.1 this
          omega
        have h3 : (q : ℚ) * u = (2 ^ 53 - 1) * u := by rw [h4]; norm_num
        have := tie (by rw [abs_of_nonneg (by linarith)]; linarith)
        omega
    · have h2 : (2 : ℚ) ^ (1 : ℤ) ≤ 2 ^ (k - 2045 : ℤ) := zpow_le_zpow_right₀ (by norm_num) (by omega)
      have h3 : 2 ^ (1 : ℤ) * p ≤ u := by rw [hup]; exact mul_le_mul_of_nonneg_right h2 hp0.le
      rw [zpow_one] at h3
      have hv2 := ge.resolve_left (by omega)
      constructor
      · intro hlt; linarith
      · intro hlt; simp only [F64.infMagnitude] at hlt; omega
  constructor
  · intro hlt
    rw [hs] at hlt
    have hfin := bound.1 hlt
    have h63 : k * 2 ^ 52 + q < 2 ^ 63 := by simp only [F64.infMagnitude] at hfin; omega
    rw [Nat.min_eq_left (by omega)]
    have hf : (F64.ofMagnitude neg (k * 2 ^ 52 + q)).isFinite = true := by
      rw [F64.isFinite, F64.ofMagnitude_magnitude h63]; exact decide_eq_true hfin
    refine ⟨hf, fun z hz hne => ?_⟩
    rw [F64.toRat_eq hf, F64.ofMagnitude_sign h63, F64.ofMagnitude_magnitude h63] at hne ⊢
    rw [F64.toRat_eq hz] at hne ⊢
    have heven : (F64.ofMagnitude neg (k * 2 ^ 52 + q)).bits.toNat % 2 = 0 ↔ (k * 2 ^ 52 + q) % 2 = 0 := by
      rw [F64.ofMagnitude_bits h63]; split <;> omega
    rw [heven]
    have hstep : u ≤ F64.magnitudeValue (k * 2 ^ 52 + q + 1) - q * u := by
      rw [F64.magnitudeValue_step, hM, hu, add_sub_cancel_left]
      exact zpow_le_zpow_right₀ (by norm_num) (by omega)
    have key : ∀ N, N ≠ k * 2 ^ 52 + q →
        |v - q * u| < |v - F64.magnitudeValue N| ∨ (|v - q * u| = |v - F64.magnitudeValue N| ∧ (k * 2 ^ 52 + q) % 2 = 0) := by
      intro N hN
      rw [← hM]
      refine F64.nearest_magnitude ?_ ?_ ?_ hN <;> rw [hM]
      · linarith
      · intro ht
        have := tie (by rw [abs_of_nonneg (by linarith)]; linarith)
        omega
      · by_cases h : (k = 0 ∧ q = 0) ∨ (k ≠ 0 ∧ q = 2 ^ 52)
        · left
          rcases h with ⟨-, rfl⟩ | ⟨h, rfl⟩
          · simpa using hv.le
          · have := ge.resolve_left h
            push_cast
            exact this
        · right
          have hp : F64.magnitudeValue (k * 2 ^ 52 + q - 1) = (q - 1) * u := by
            rw [show k * 2 ^ 52 + q - 1 = k * 2 ^ 52 + (q - 1) by omega, F64.magnitudeValue_pack (by omega) (by omega), hu,
              Nat.cast_sub (by omega), Nat.cast_one]
          rw [hp]
          refine ⟨by linarith, fun ht => ?_⟩
          have := tie (by rw [abs_of_nonpos (by linarith)]; linarith)
          omega
    rw [hM] at hne ⊢
    have hz0 := F64.magnitudeValue_nonneg z.magnitude
    rw [sign_distance, sign_distance, if_pos rfl]
    by_cases hN : z.magnitude = k * 2 ^ 52 + q
    · rw [hN, hM] at hne hz0 ⊢
      have hs : neg ≠ z.sign := fun h => hne (by rw [h])
      have h0 : (q : ℚ) * u ≠ 0 := fun h => hne (by rw [h, mul_zero, mul_zero])
      have hpos : 0 < (q : ℚ) * u := hz0.lt_of_ne' h0
      rw [if_neg hs]
      exact .inl ((abs_lt.2 ⟨by linarith, by linarith⟩).trans_le (le_abs_self _))
    · by_cases hs : neg = z.sign
      · rw [if_pos hs]
        exact key _ hN
      · rw [if_neg hs]
        have far : |v - F64.magnitudeValue z.magnitude| ≤ |v + F64.magnitudeValue z.magnitude| :=
          (abs_le.2 ⟨by linarith, by linarith⟩).trans (le_abs_self _)
        obtain h | ⟨h, heven⟩ := key _ hN
        · exact .inl (h.trans_le far)
        · exact (h ▸ far).lt_or_eq.imp_right fun h' => ⟨h', heven⟩
  · intro hle
    rw [hs] at hle
    have : F64.infMagnitude ≤ k * 2 ^ 52 + q := by
      by_contra hc
      exact absurd (bound.2 (by omega)) (not_lt.2 hle)
    rw [Nat.min_eq_right this]
    cases neg <;> simp [hv, not_lt.2 hv.le]

/-- Dropping `k` bits, to nearest with ties to even. -/
theorem roundShift_spec (m k : Nat) :
    2 * m ≤ (2 * roundShift m k + 1) * 2 ^ k ∧ 2 * roundShift m k * 2 ^ k ≤ 2 * m + 2 ^ k ∧
    (2 * m = (2 * roundShift m k + 1) * 2 ^ k ∨ 2 * roundShift m k * 2 ^ k = 2 * m + 2 ^ k → roundShift m k % 2 = 0) := by
  have hd := Nat.div_add_mod m (2 ^ k)
  have hr := Nat.mod_lt m (Nat.two_pow_pos k)
  have hp := Nat.two_pow_pos k
  unfold roundShift
  generalize m % 2 ^ k = r at *
  generalize m / 2 ^ k = d at *
  generalize 2 ^ k = p at *
  subst hd
  split
  · rename_i h
    have hle : p ≤ 2 * r := by omega
    refine ⟨by nlinarith, by nlinarith, fun h' => ?_⟩
    rcases h with h | ⟨h1, h2⟩
    · rcases h' with h' | h' <;> exfalso <;> nlinarith
    · omega
  · rename_i h
    push Not at h
    refine ⟨by nlinarith, by nlinarith, fun h' => ?_⟩
    have : 2 * r = p := by
      rcases h' with h' | h' <;> nlinarith
    have := h.2 this
    omega

/-- The same for a quotient taken to a bit that says whether anything was left over, at least two bits being dropped. -/
theorem roundShift_sticky {a b k : Nat} (hb : 0 < b) (hk : 2 ≤ k) :
    let q := roundShift (2 * (a / b) + if a % b = 0 then 0 else 1) k
    4 * a ≤ (2 * q + 1) * 2 ^ k * b ∧ 2 * q * 2 ^ k * b ≤ 4 * a + 2 ^ k * b ∧
    (4 * a = (2 * q + 1) * 2 ^ k * b ∨ 2 * q * 2 ^ k * b = 4 * a + 2 ^ k * b → q % 2 = 0) := by
  intro q
  obtain ⟨h1, h2, h3⟩ := roundShift_spec (2 * (a / b) + if a % b = 0 then 0 else 1) k
  change _ ≤ (2 * q + 1) * 2 ^ k at h1
  change 2 * q * 2 ^ k ≤ _ at h2
  change _ = (2 * q + 1) * 2 ^ k ∨ 2 * q * 2 ^ k = _ → q % 2 = 0 at h3
  clear_value q
  obtain ⟨p, hp⟩ : ∃ p, 2 ^ k = 4 * p := ⟨2 ^ (k - 2), by rw [show k = 2 + (k - 2) by omega, pow_add]; simp⟩
  rw [hp] at h1 h2 h3 ⊢
  have hd := Nat.div_add_mod a b
  have hr := Nat.mod_lt a hb
  generalize a / b = d at *
  generalize a % b = r at *
  subst hd
  split_ifs at h1 h2 h3 with h0
  · subst h0
    simp only [Nat.add_zero] at *
    have e1 : d ≤ (2 * q + 1) * p := by nlinarith
    have e2 : 2 * q * p ≤ d + p := by nlinarith
    have m1 := Nat.mul_le_mul_left b e1
    have m2 := Nat.mul_le_mul_left b e2
    refine ⟨by nlinarith, by nlinarith, fun h => h3 ?_⟩
    rcases h with h | h
    · left
      have := Nat.eq_of_mul_eq_mul_left hb (show b * (4 * d) = b * ((2 * q + 1) * (4 * p)) by nlinarith)
      nlinarith
    · right
      have := Nat.eq_of_mul_eq_mul_left hb (show b * (2 * q * (4 * p)) = b * (4 * d + 4 * p) by nlinarith)
      nlinarith
  · have e1 : 4 * d + 4 ≤ (2 * q + 1) * (4 * p) := by
      have : 4 * d + 2 ≤ 4 * ((2 * q + 1) * p) := by nlinarith
      have : d + 1 ≤ (2 * q + 1) * p := by omega
      nlinarith
    have e2 : 2 * q * (4 * p) ≤ 4 * d + 4 * p := by
      have : 4 * (2 * q * p) ≤ 4 * d + 2 + 4 * p := by nlinarith
      have : 2 * q * p ≤ d + p := by omega
      nlinarith
    have m1 := Nat.mul_le_mul_left b e1
    have m2 := Nat.mul_le_mul_left b e2
    have r0 : 0 < r := Nat.pos_of_ne_zero h0
    refine ⟨by nlinarith, by nlinarith, fun h => ?_⟩
    rcases h with h | h <;> exfalso <;> nlinarith

/-- Rounding `w * 2^e`, where `w` has leading bit L: the last place of `F64.round`, and a significand within half a unit. -/
theorem F64.pack_scaled {neg : Bool} {w : ℚ} {e lsb : ℤ} {L q : Nat} (lo : 2 ^ L ≤ w) (hi : w < 2 ^ (L + 1))
    (hl : lsb = max (e + L - 52) (-1074))
    (near : |w * 2 ^ e - q * 2 ^ lsb| ≤ 2 ^ lsb / 2) (tie : |w * 2 ^ e - q * 2 ^ lsb| = 2 ^ lsb / 2 → q % 2 = 0) :
    RoundsTo ((if neg then -1 else 1) * (w * 2 ^ e))
      (F64.ofMagnitude neg (min ((lsb + 1074).toNat * 2 ^ 52 + q) F64.infMagnitude)) := by
  have hk : (((lsb + 1074).toNat : ℕ) : ℤ) - 1074 = lsb := by omega
  have he : (0 : ℚ) < 2 ^ e := zpow_pos (by norm_num) _
  have hw : 0 < w := lt_of_lt_of_le (by positivity) lo
  refine F64.pack_roundsTo (mul_pos hw he) (by rwa [hk]) (by rwa [hk]) ?_ ?_ <;> rw [hk]
  · calc w * 2 ^ e < 2 ^ (L + 1) * 2 ^ e := mul_lt_mul_of_pos_right hi he
      _ = 2 ^ ((L + 1 : ℕ) + e : ℤ) := by rw [zpow_add₀ (by norm_num), zpow_natCast]
      _ ≤ 2 ^ ((53 : ℕ) + lsb : ℤ) := zpow_le_zpow_right₀ (by norm_num) (by omega)
      _ = 2 ^ 53 * 2 ^ lsb := by rw [zpow_add₀ (by norm_num), zpow_natCast]
  · by_cases hs : lsb = -1074
    · left
      omega
    · right
      calc (2 : ℚ) ^ 52 * 2 ^ lsb = 2 ^ ((52 : ℕ) + lsb : ℤ) := by rw [zpow_add₀ (by norm_num), zpow_natCast]
        _ ≤ 2 ^ ((L : ℕ) + e : ℤ) := zpow_le_zpow_right₀ (by norm_num) (by omega)
        _ = 2 ^ L * 2 ^ e := by rw [zpow_add₀ (by norm_num), zpow_natCast]
        _ ≤ w * 2 ^ e := mul_le_mul_of_nonneg_right lo he.le

/-- Half a unit, in the units of the last bit dropped. -/
theorem F64.near_scaled {w : ℚ} {e lsb : ℤ} {q s : Nat} (hs : lsb = e + s)
    (h1 : 2 * w ≤ (2 * q + 1) * 2 ^ s) (h2 : 2 * q * 2 ^ s ≤ 2 * w + 2 ^ s) :
    |w * 2 ^ e - q * 2 ^ lsb| ≤ 2 ^ lsb / 2 ∧
    (|w * 2 ^ e - q * 2 ^ lsb| = 2 ^ lsb / 2 → 2 * w = (2 * q + 1) * 2 ^ s ∨ 2 * q * 2 ^ s = 2 * w + 2 ^ s) := by
  have he : (0 : ℚ) < 2 ^ e := zpow_pos (by norm_num) _
  have hl : (2 : ℚ) ^ lsb = 2 ^ s * 2 ^ e := by rw [hs, zpow_add₀ (by norm_num), zpow_natCast, mul_comm]
  rw [hl, show w * 2 ^ e - q * (2 ^ s * 2 ^ e) = (w - q * 2 ^ s) * 2 ^ e by ring, abs_mul, abs_of_pos he, mul_div_right_comm]
  refine ⟨mul_le_mul_of_nonneg_right (abs_le.2 ⟨by linarith, by linarith⟩) he.le, fun h => ?_⟩
  have h := mul_right_cancel₀ he.ne' h
  rcases le_total 0 (w - q * 2 ^ s) with h0 | h0
  · rw [abs_of_nonneg h0] at h
    left
    linarith
  · rw [abs_of_nonpos h0] at h
    right
    linarith

/-- What `F64.round` is, with its last place named. -/
theorem F64.round_eq {neg : Bool} {m : Nat} {e lsb : ℤ} (hm : m ≠ 0) (hl : lsb = lastPlace m e) :
    F64.round neg m e = F64.ofMagnitude neg (min ((lsb + 1074).toNat * 2 ^ 52 +
      (if lsb ≤ e then m * 2 ^ (e - lsb).toNat else roundShift m (lsb - e).toNat)) F64.infMagnitude) := by
  subst hl
  rw [F64.round, if_neg hm]

/-- The sign of a rounded number is the one asked for, of a zero and an infinity too. -/
theorem F64.round_sign (neg : Bool) (m : Nat) (e : ℤ) : (F64.round neg m e).sign = neg := by
  have hinf : F64.infMagnitude < 2 ^ 63 := by decide
  by_cases h : m = 0
  · rw [F64.round, if_pos h, F64.ofMagnitude_sign (by norm_num)]
  · rw [F64.round_eq h rfl, F64.ofMagnitude_sign (lt_of_le_of_lt (Nat.min_le_right _ _) hinf)]

/-- `F64.round` rounds once, to nearest with ties to even. -/
theorem F64.round_roundsTo (neg : Bool) {m : Nat} (hm : m ≠ 0) (e : ℤ) :
    RoundsTo ((if neg then -1 else 1) * ((m : ℚ) * 2 ^ e)) (F64.round neg m e) := by
  obtain ⟨lsb, hl⟩ : ∃ lsb, lsb = lastPlace m e := ⟨_, rfl⟩
  rw [F64.round_eq hm hl]
  have hl : lsb = max (e + (Nat.log2 m : ℕ) - 52) (-1074) := hl
  have lo : (2 : ℚ) ^ Nat.log2 m ≤ m := by exact_mod_cast Nat.log2_self_le hm
  have hi : (m : ℚ) < 2 ^ (Nat.log2 m + 1) := by exact_mod_cast Nat.lt_log2_self
  by_cases h : lsb ≤ e
  · rw [if_pos h]
    have hv : ((m * 2 ^ (e - lsb).toNat : Nat) : ℚ) * 2 ^ lsb = m * 2 ^ e := by
      push_cast
      rw [mul_assoc, ← zpow_natCast, ← zpow_add₀ (by norm_num)]
      congr 2
      omega
    have hp : (0 : ℚ) < 2 ^ lsb / 2 := by positivity
    refine F64.pack_scaled lo hi hl ?_ ?_ <;> rw [hv, sub_self, abs_zero]
    · exact hp.le
    · exact fun h => absurd h hp.ne
  · rw [if_neg h]
    obtain ⟨h1, h2, h3⟩ := roundShift_spec m (lsb - e).toNat
    obtain ⟨n1, n2⟩ := F64.near_scaled (w := m) (e := e) (lsb := lsb) (q := roundShift m (lsb - e).toNat)
      (s := (lsb - e).toNat) (by omega) (by exact_mod_cast h1) (by exact_mod_cast h2)
    exact F64.pack_scaled lo hi hl n1 fun ht => h3 (by exact_mod_cast n2 ht)

/-- `F64.roundQuotient` rounds the quotient once, to nearest with ties to even. -/
theorem F64.roundQuotient_roundsTo (neg : Bool) {a b : Nat} (ha : a ≠ 0) (hb : b ≠ 0) (e : ℤ) :
    RoundsTo ((if neg then -1 else 1) * ((a : ℚ) / b * 2 ^ e)) (F64.roundQuotient neg a b e) := by
  obtain ⟨k, hk⟩ : ∃ k, k = 56 + Nat.log2 b - Nat.log2 a := ⟨_, rfl⟩
  obtain ⟨A, hA⟩ : ∃ A, A = a * 2 ^ k := ⟨_, rfl⟩
  obtain ⟨m, hm⟩ : ∃ m, m = 2 * (A / b) + if A % b = 0 then 0 else 1 := ⟨_, rfl⟩
  obtain ⟨e', he'⟩ : ∃ e', e' = e - k - 1 := ⟨_, rfl⟩
  have hround : F64.roundQuotient neg a b e = F64.round neg m e' := by
    rw [he', hm, hA, hk]
    rfl
  have hb0 := Nat.pos_of_ne_zero hb
  have hbq : (0 : ℚ) < b := by exact_mod_cast hb0
  have hbig : 2 ^ 55 ≤ A / b := by
    rw [Nat.le_div_iff_mul_le hb0, hA]
    calc 2 ^ 55 * b ≤ 2 ^ 55 * 2 ^ (Nat.log2 b + 1) := Nat.mul_le_mul_left _ Nat.lt_log2_self.le
      _ = 2 ^ (56 + Nat.log2 b) := by rw [← pow_add]; congr 1; omega
      _ ≤ 2 ^ (Nat.log2 a + k) := Nat.pow_le_pow_right (by norm_num) (by omega)
      _ = 2 ^ Nat.log2 a * 2 ^ k := pow_add ..
      _ ≤ a * 2 ^ k := Nat.mul_le_mul_right _ (Nat.log2_self_le ha)
  have hm2 : 2 * (A / b) ≤ m ∧ m ≤ 2 * (A / b) + 1 := by
    rw [hm]
    split <;> omega
  have hm0 : m ≠ 0 := by omega
  have hL : 56 ≤ Nat.log2 m := (Nat.le_log2 hm0).2 (by omega)
  have hv : (a : ℚ) / b * 2 ^ e = (2 * A / b : ℚ) * 2 ^ e' := by
    rw [he', hA, zpow_sub₀ (by norm_num), zpow_sub₀ (by norm_num), zpow_natCast]
    push_cast
    field_simp
  obtain ⟨h, hh⟩ : ∃ h, Nat.log2 m = h + 1 := ⟨Nat.log2 m - 1, by omega⟩
  have e1 : 2 ^ Nat.log2 m = 2 * 2 ^ h := by rw [hh, pow_succ, Nat.mul_comm]
  have lo : (2 : ℚ) ^ Nat.log2 m ≤ 2 * A / b := by
    have h1 := Nat.log2_self_le hm0
    have h2 : 2 ^ h * b ≤ A := (Nat.le_div_iff_mul_le hb0).1 (by omega)
    rw [le_div_iff₀ hbq]
    exact_mod_cast (by rw [e1]; nlinarith : 2 ^ Nat.log2 m * b ≤ 2 * A)
  have hi : (2 * A / b : ℚ) < 2 ^ (Nat.log2 m + 1) := by
    have h1 : m < 2 ^ (Nat.log2 m + 1) := Nat.lt_log2_self
    rw [pow_succ, e1] at h1
    have h2 : A < 2 * 2 ^ h * b := (Nat.div_lt_iff_lt_mul hb0).1 (by omega)
    rw [div_lt_iff₀ hbq]
    exact_mod_cast (by rw [pow_succ, e1]; nlinarith : 2 * A < 2 ^ (Nat.log2 m + 1) * b)
  obtain ⟨lsb, hl⟩ : ∃ lsb, lsb = lastPlace m e' := ⟨_, rfl⟩
  rw [hround, hv, F64.round_eq hm0 hl]
  have hl : lsb = max (e' + (Nat.log2 m : ℕ) - 52) (-1074) := hl
  rw [if_neg (show ¬ lsb ≤ e' by omega)]
  obtain ⟨h1, h2, h3⟩ := roundShift_sticky (a := A) (k := (lsb - e').toNat) hb0 (by omega)
  rw [← hm] at h1 h2 h3
  have c : (2 * A / b : ℚ) * b = 2 * A := div_mul_cancel₀ _ hbq.ne'
  have h1 : (4 * A : ℚ) ≤ (2 * roundShift m (lsb - e').toNat + 1) * 2 ^ (lsb - e').toNat * b := by exact_mod_cast h1
  have h2 : (2 * roundShift m (lsb - e').toNat * 2 ^ (lsb - e').toNat * b : ℚ) ≤ 4 * A + 2 ^ (lsb - e').toNat * b := by
    exact_mod_cast h2
  obtain ⟨n1, n2⟩ := F64.near_scaled (w := 2 * A / b) (e := e') (lsb := lsb) (q := roundShift m (lsb - e').toNat)
    (s := (lsb - e').toNat) (by omega)
    (le_of_mul_le_mul_right (by linarith) hbq) (le_of_mul_le_mul_right (by linarith) hbq)
  refine F64.pack_scaled lo hi hl n1 fun ht => h3 ?_
  refine (n2 ht).imp (fun h => ?_) (fun h => ?_)
  · have h := congrArg (· * (b : ℚ)) h
    beta_reduce at h
    exact_mod_cast (by linarith : (4 * A : ℚ) = (2 * roundShift m (lsb - e').toNat + 1) * 2 ^ (lsb - e').toNat * b)
  · have h := congrArg (· * (b : ℚ)) h
    beta_reduce at h
    exact_mod_cast (by linarith :
      (2 * roundShift m (lsb - e').toNat * 2 ^ (lsb - e').toNat * b : ℚ) = 4 * A + 2 ^ (lsb - e').toNat * b)

/-- Either zero is 0 rounded. -/
theorem F64.zero_roundsTo (b : Bool) : RoundsTo 0 (F64.ofMagnitude b 0) := by
  have hf : (F64.ofMagnitude b 0).isFinite = true := by cases b <;> decide
  have h0 : (F64.ofMagnitude b 0).toRat = 0 := by
    rw [F64.toRat_eq hf, F64.ofMagnitude_magnitude (by norm_num), F64.magnitudeValue_zero, mul_zero]
  have hp : 0 < overflowBound := by rw [overflowBound_eq]; exact mul_pos (by norm_num) (zpow_pos (by norm_num) _)
  refine ⟨fun _ => ⟨hf, fun z _ hne => .inl ?_⟩, fun h => absurd h (by simpa using hp)⟩
  rw [h0] at hne ⊢
  simpa using hne

end Sys2Proof
end

