-- ==== Sys2Proof/Laws/PerInstr.lean ====
section
/-! SUPPORT. Facts about instructions as syntax, one lemma per constructor. -/

namespace Sys2Proof

/-- Whether an instruction is one of the event stream (formats CMD and EVT), not a transfer of the register-protocol unit. -/
def Instr.isEvent : Instr → Bool
  | .req => true
  | .setgain _ => true
  | .start => true
  | .stop => true
  | .setivl _ => true
  | .getivl => true
  | .tick => true
  | .drdy => true
  | .wrreg _ _ => false
  | .rdbyte _ => false
  | .rdblk _ _ => false

end Sys2Proof

namespace Sys2Proof.Laws

/-- The format of an instruction's encoding: an event of the stream, which every one of its operands makes well formed, or a
transfer whose first byte is a register's address (30_encoding R89 to R91, R101). -/
def Format.Statement (i : Instr) : Prop :=
  ∀ p : Params, (i.isEvent = true → i.wellFormed = true ∧ ∃ e, encode p i = .event e) ∧
  (i.isEvent = false → ∃ reg rest n, encode p i = .bus (.write (Machine.regAddr p reg :: rest)) ∨
    encode p i = .bus (.writeRead [Machine.regAddr p reg] n))

theorem Format.req : Format.Statement .req := fun _ => ⟨fun _ => ⟨rfl, _, rfl⟩, nofun⟩

theorem Format.setgain (g : GainIndex) : Format.Statement (.setgain g) := fun _ => ⟨fun _ => ⟨rfl, _, rfl⟩, nofun⟩

theorem Format.start : Format.Statement .start := fun _ => ⟨fun _ => ⟨rfl, _, rfl⟩, nofun⟩

theorem Format.stop : Format.Statement .stop := fun _ => ⟨fun _ => ⟨rfl, _, rfl⟩, nofun⟩

theorem Format.setivl (t : Interval) : Format.Statement (.setivl t) := fun _ => ⟨fun _ => ⟨rfl, _, rfl⟩, nofun⟩

theorem Format.getivl : Format.Statement .getivl := fun _ => ⟨fun _ => ⟨rfl, _, rfl⟩, nofun⟩

theorem Format.tick : Format.Statement .tick := fun _ => ⟨fun _ => ⟨rfl, _, rfl⟩, nofun⟩

theorem Format.drdy : Format.Statement .drdy := fun _ => ⟨fun _ => ⟨rfl, _, rfl⟩, nofun⟩

theorem Format.wrreg (reg : RegName) (v : Byte) : Format.Statement (.wrreg reg v) :=
  fun _ => ⟨nofun, fun _ => ⟨reg, [v], 0, .inl rfl⟩⟩

theorem Format.rdbyte (reg : RegName) : Format.Statement (.rdbyte reg) :=
  fun _ => ⟨nofun, fun _ => ⟨reg, [], 1, .inr rfl⟩⟩

theorem Format.rdblk (reg : RegName) (n : Nat) : Format.Statement (.rdblk reg n) :=
  fun _ => ⟨nofun, fun _ => ⟨reg, [], n, .inr rfl⟩⟩

end Sys2Proof.Laws
end

