-- ==== Sys2Proof/Laws/Run.lean ====
section
/-! SUPPORT. Runs of several steps: one step at a time, and the induction over steps, packaged once. -/

namespace Sys2Proof.Machine

theorem run_zero (s : State) : core.run 0 s = .next s := rfl

theorem run_succ_of_next {s u : State} (h : step s = .next u) (n : Nat) : core.run (n + 1) s = core.run n u :=
  have key (M : Host.Core) (s u : M.State) (h : M.step s = .next u) : M.run (n + 1) s = M.run n u := by
    rw [Host.Core.run, h]
  key core s u h

theorem run_succ_of_fault {s : State} {f : Fault} (h : step s = .fault f) (n : Nat) : core.run (n + 1) s = .fault f :=
  have key (M : Host.Core) (s : M.State) (f : M.Fault) (h : M.step s = .fault f) : M.run (n + 1) s = .fault f := by
    rw [Host.Core.run, h]
  key core s f h

theorem run_succ_of_refused {s : State} {r : Refusal} (h : step s = .refused r) (n : Nat) :
    core.run (n + 1) s = .refused r :=
  have key (M : Host.Core) (s : M.State) (r : M.Refusal) (h : M.step s = .refused r) :
      M.run (n + 1) s = .refused r := by
    rw [Host.Core.run, h]
  key core s r h

/-- A run that ends in a next state began with a step that did. -/
theorem run_succ_next {s t : State} {n : Nat} (h : core.run (n + 1) s = .next t) :
    ∃ u, step s = .next u ∧ core.run n u = .next t := by
  cases hs : step s with
  | next u => exact ⟨u, rfl, (run_succ_of_next hs n).symm.trans h⟩
  | fault f => rw [run_succ_of_fault hs] at h; cases h
  | refused r => rw [run_succ_of_refused hs] at h; cases h

/-- What holds at the start and is kept by every step holds at the end of every run. -/
theorem run_induction {P : State → Prop} (keep : ∀ s t, P s → step s = .next t → P t) :
    ∀ (n : Nat) {s t : State}, P s → core.run n s = .next t → P t
  | 0, _, _, hs, h => by cases h; exact hs
  | n + 1, _, _, hs, h => by
    obtain ⟨u, hu, ht⟩ := run_succ_next h
    exact run_induction keep n (keep _ u hs hu) ht

end Sys2Proof.Machine
end

