-- ==== Sys2Proof/Laws/Samples.lean ====
section
/-! SUPPORT. The raw pattern and DECODE_AXIS over the two bytes as numbers. -/

namespace Sys2Proof.Machine

theorem raw16_toNat (high low : Byte) : (raw16 high low).toNat = high.toNat * 256 + low.toNat := by
  have hh := high.isLt
  have hl := low.isLt
  simp only [raw16, BitVec.toNat_or, BitVec.toNat_shiftLeft, BitVec.toNat_setWidth, Nat.shiftLeft_eq]
  rw [Nat.mod_eq_of_lt (by omega : high.toNat < 2 ^ 16), Nat.mod_eq_of_lt (by omega),
    Nat.mod_eq_of_lt (by omega : low.toNat < 2 ^ 16), Nat.mul_comm, ← Nat.two_pow_add_eq_or_of_lt hl]

/-- DECODE_AXIS in one case distinction. -/
theorem decodeAxis_eq (high low : Byte) : decodeAxis high low =
    if high.toNat * 256 + low.toNat < 32768 then (high.toNat * 256 + low.toNat : Int)
    else (high.toNat * 256 + low.toNat : Int) - 65535 := by
  have hh := high.isLt
  have hl := low.isLt
  have hm : (raw16 high low &&& 0x7FFF#16).toNat = (high.toNat * 256 + low.toNat) % 32768 := by
    rw [BitVec.toNat_and, raw16_toNat]
    exact Nat.and_two_pow_sub_one_eq_mod _ 15
  have hb : (raw16 high low).getLsbD 15 = decide (32768 ≤ high.toNat * 256 + low.toNat) := by
    have : (raw16 high low).msb = (raw16 high low).getLsbD 15 := by simp [BitVec.msb, BitVec.getMsbD]
    rw [← this, BitVec.msb_eq_decide, raw16_toNat]
  simp only [decodeAxis, hb, hm]
  split <;> split <;> simp_all <;> omega

end Sys2Proof.Machine
end

