-- ==== Sys2Proof/Machine/Framing.lean ====
section
/-! DEFINITION. What the collaborators make of the block's outputs: the two-wire frame of a transfer (30_encoding R89 to R91) and the
period of the timer. No step uses either: the block sees whole transfers and has no time. The picture is the spec's general knowledge (G2); UNVERIFIED, log 9. -/

namespace Sys2Proof.Machine

/-- One element of a frame on the two wires; a `slot` is a byte the sensor drives. -/
inductive WireSymbol where
  | start | repeatedStart | stop
  | byte (b : Byte)
  | slot
  deriving DecidableEq, Repr

/-- `{DEV_ADDR, rw}`: 0 writes, 1 reads. -/
def addressByte (p : Params) (rw : BitVec 1) : Byte := p.devAddr ++ rw

/-- The frame of a transfer: `DEV_ADDR` for writing and the bytes written; for a combined transfer, a repeated START, `DEV_ADDR` for
reading and n bytes read. -/
def wireFrame (p : Params) : BusRequest → List WireSymbol
  | .write bytes => [.start, .byte (addressByte p 0#1)] ++ bytes.map .byte ++ [.stop]
  | .writeRead wbytes n =>
    [.start, .byte (addressByte p 0#1)] ++ wbytes.map .byte ++ [.repeatedStart, .byte (addressByte p 1#1)] ++
      List.replicate n .slot ++ [.stop]

/-- The time between ticks that `TimerStart(t)` asks the timer for, in seconds (30_encoding R97, 60_exceptions R255). No step uses it. -/
def timerPeriod (t : Interval) : Rat := t.toNat * Config.intervalUnit

end Sys2Proof.Machine
end

