-- ==== Sys2Proof/Tests/Slice0.lean ====
section
/-! SUPPORT. Checks on fixed values, each from a vector of spec/95_test_vectors.md or a worked-out rule of the spec, and for every
statement with hypotheses a state and operands that meet them. -/

namespace Sys2Proof.Tests

open Sys2Proof Sys2Proof.Machine

/-! ### Helpers -/

/-- A small state in a controller state, the timer armed exactly in CONTINUOUS, with interval 100 and scripted bus answers. -/
def inState (c : CtrlState) (answers : List BusAnswer) : State where
  params := .default
  regs := {
    ctrlState := c, armed := decide (c = .continuous), interval := 100#24, gainSet := false, gain := 0#3,
    lastModeValid := false, lastMode := .idle }
  events := []
  unitPort := none
  busAnswers := answers
  transfers := 0
  trace := []

/-- The same with one event waiting. -/
def withEvent (e : Event) (s : State) : State := { s with events := [e] }

/-- Some bus error. -/
def err0 : ErrInfo := ⟨⟨0, Nat.succ_pos _⟩⟩

def ack : BusAnswer := .done (.ok [])

def nak : BusAnswer := .done (.err err0)

/-- The block of W1. -/
def blockW1 : BusAnswer := .done (.ok [0x00#8, 0x64#8, 0x00#8, 0x32#8, 0x00#8, 0xC8#8])

/-- The controller state and the outputs a step leaves. -/
def shown : Host.Outcome State Fault Refusal → Option (CtrlState × List Output)
  | .next t => some (t.regs.ctrlState, t.trace)
  | .fault _ => none
  | .refused _ => none

/-- The state a step leaves, or the state `s`. -/
def nextOr (s : State) : Host.Outcome State Fault Refusal → State
  | .next t => t
  | .fault _ => s
  | .refused _ => s

def isNext : Host.Outcome State Fault Refusal → Bool
  | .next _ => true
  | .fault _ => false
  | .refused _ => false

theorem next_of_isNext {s : State} {o : Host.Outcome State Fault Refusal} (h : isNext o = true) : o = .next (nextOr s o) := by
  cases o with
  | next t => rfl
  | fault f => cases h
  | refused r => cases h

/-! ### WellFormed: the ill-formed RDBLK of R122 is refused, the boundaries are not -/

theorem test_wf_rdblk_zero : (Instr.rdblk .mode 0).wellFormed = false := by decide
theorem test_wf_rdblk_256 : (Instr.rdblk .mode 256).wellFormed = false := by decide
theorem test_wf_rdblk_bounds : (Instr.rdblk .mode 1).wellFormed = true ∧ (Instr.rdblk .mode 255).wellFormed = true := by decide

/-! ### Decoding: a word of every row, from V1, R88 and R89 to R95 -/

theorem test_decode_req : decodeTableWord 32 0x00000001 = some .req := by decide
theorem test_decode_setgain : decodeTableWord 32 0x00000072 = some (.setgain 7#3) := by decide
theorem test_decode_start : decodeTableWord 32 0x00000003 = some .start := by decide
theorem test_decode_stop : decodeTableWord 32 0x00000004 = some .stop := by decide
theorem test_decode_setivl : decodeTableWord 32 0xFFFFFF05 = some (.setivl 0xFFFFFF#24) := by decide
theorem test_decode_getivl : decodeTableWord 32 0x00000006 = some .getivl := by decide
theorem test_decode_tick : decodeTableWord 32 0x00000008 = some .tick := by decide
theorem test_decode_drdy : decodeTableWord 32 0x00000009 = some .drdy := by decide
theorem test_decode_wrreg : decode .default (.bus (.write [0x01#8, 0xA0#8])) = .ok (.wrreg .configB 0xA0#8) := by decide
theorem test_decode_rdbyte : decode .default (.bus (.writeRead [0x09#8] 1)) = .ok (.rdbyte .status) := by decide
theorem test_decode_rdblk : decode .default (.bus (.writeRead [0x03#8] 6)) = .ok (.rdblk .dataXMsb 6) := by decide

/-- The illegal words of V1, from the host port. -/
theorem test_decode_illegal :
    [0x00000000#32, 0x00000007#32, 0x00000008#32, 0x00000009#32, 0x0000000F#32, 0x00000011#32, 0x00000082#32, 0x00000102#32,
      0x00000095#32, 0x00000085#32, 0x80000003#32, 0x00000106#32].map (fun w => (decodeHost w).toOption) =
    List.replicate 12 none := by decide

/-- R92: the addresses 0x00 to 0x0C are those of REG_ADDR, 0x0D is none. -/
theorem test_unknown_address : decode .default (.bus (.write [0x0D#8, 0x00#8])) = .error .unknownAddress := by decide

/-- The legal words of V1 as the encoder writes them. -/
theorem test_encode_words :
    encode .default (.setgain 5#3) = .event (.host 0x00000052#32) ∧ encode .default (.setivl 0x123456#24) = .event (.host 0x12345605#32) := by decide

/-- R102 and V1: STARTIVL 5 is the two words 0x00000505 and 0x00000003. -/
theorem test_startivl_words :
    (startIvl 5#24).map (encode .default) = [.event (.host 0x00000505#32), .event (.host 0x00000003#32)] := by decide

/-- R92: the thirteen default addresses, in the table's order, are 0x00 to 0x0C. -/
theorem test_default_addresses : RegName.all.map (regAddr .default) =
    [0x00#8, 0x01#8, 0x02#8, 0x03#8, 0x04#8, 0x05#8, 0x06#8, 0x07#8, 0x08#8, 0x09#8, 0x0A#8, 0x0B#8, 0x0C#8] := by decide

/-- R93, R94, R9: the default mode codes, gain register and bus address. -/
theorem test_default_codes :
    [Mode.continuous, .singleShot, .idle, .sleep].map (modeCode .default) = [0x00#8, 0x01#8, 0x02#8, 0x03#8] ∧
    Params.default.gainReg = .configB ∧ Params.default.devAddr = 0x1E#7 := by decide

/-- R92: the default keeps the order of the data registers. -/
theorem test_default_data_order : DataInOrder (regAddr .default) := by
  unfold DataInOrder
  decide

/-- R92, D8: with the first data register as high as it can be, the last is at 0xFF. -/
theorem test_data_addresses_end :
    [RegName.dataXMsb, .dataXLsb, .dataZMsb, .dataZLsb, .dataYMsb, .dataYLsb].map
      (regAddr { Params.default with regAddr := { regMapDefault with data := 250 } }) =
    [0xFA#8, 0xFB#8, 0xFC#8, 0xFD#8, 0xFE#8, 0xFF#8] := by decide

/-! ### Codes: R21, R25, R86, R93, R94, R98 -/

theorem test_status_codes : [Status.ok, .errTransport, .errIllegal].map statusCode = [0#2, 1#2, 2#2] := by decide
theorem test_ctrl_codes : [CtrlState.idle, .awaitingSingle, .continuous].map ctrlCode = [0#2, 1#2, 2#2] := by decide
theorem test_mode_codes : [Mode.continuous, .singleShot, .idle, .sleep].map modeIndex = [0#2, 1#2, 2#2, 3#2] := by decide
theorem test_gain_codes :
    [0#3, 1#3, 2#3, 3#3, 4#3, 5#3, 6#3, 7#3].map (gainCode .default) =
    [0x00#8, 0x20#8, 0x40#8, 0x60#8, 0x80#8, 0xA0#8, 0xC0#8, 0xE0#8] := by decide
theorem test_origin_codes : [Origin.tick, .drdy].map originCode = [0#1, 1#1] := by decide

/-- R90's frame with the default DEV_ADDR 0x1E: 0x3C writes, 0x3D reads. -/
theorem test_frame_rdbyte : wireFrame .default (.writeRead [0x03#8] 1) =
    [.start, .byte 0x3C#8, .byte 0x03#8, .repeatedStart, .byte 0x3D#8, .slot, .stop] := by decide

/-- R89's frame. -/
theorem test_frame_wrreg : wireFrame .default (.write [0x02#8, 0x01#8]) =
    [.start, .byte 0x3C#8, .byte 0x02#8, .byte 0x01#8, .stop] := by decide

/-! ### Every row runs as the first instruction after reset -/

theorem test_first_after_reset :
    [(32, 0x1), (32, 0x2), (32, 0x3), (32, 0x4), (32, 0x5), (32, 0x6), (32, 0x8), (32, 0x9), (16, 0x0102), (8, 0x03), (56, 0x03)].map
      (fun p => isNext (step (State.reset.withFetchWord p.1 p.2))) = List.replicate 11 true := by decide

/-! ### Steps: V8 -/

theorem test_req_idle : shown (step (withEvent (.host 0x1#32) (inState .idle [ack]))) =
    some (.awaitingSingle, [.bus (.write [0x02#8, 0x01#8]) (.ok []), .respond .ok 0#32 none]) := by decide

theorem test_req_continuous_err : shown (step (withEvent (.host 0x1#32) (inState .continuous [nak]))) =
    some (.continuous, [.bus (.write [0x02#8, 0x01#8]) (.err err0), .respond .errTransport 0#32 (some err0)]) := by decide

theorem test_setgain_ok : (nextOr State.reset (step (withEvent (.host 0x52#32) (inState .idle [ack])))).regs.gain = 5#3 ∧
    shown (step (withEvent (.host 0x52#32) (inState .idle [ack]))) =
      some (.idle, [.bus (.write [0x01#8, 0xA0#8]) (.ok []), .respond .ok 0#32 none]) := by decide

/-- Other parameters: the mode register at 0x7F with single-shot code 0x33. -/
theorem test_req_other_params :
    shown (exec .req { inState .idle [ack] with
      params := { Params.default with
        regAddr := { regMapDefault with mode := 0x7F#8 }, modeCode := { modeCodesDefault with singleShot := 0x33#8 } } }) =
    some (.awaitingSingle, [.bus (.write [0x7F#8, 0x33#8]) (.ok []), .respond .ok 0#32 none]) := by decide

theorem test_setgain_err : (nextOr State.reset (step (withEvent (.host 0x52#32) (inState .idle [nak])))).regs.gainSet = false := by
  decide

theorem test_start_awaiting : shown (step (withEvent (.host 0x3#32) (inState .awaitingSingle []))) =
    some (.continuous, [.timerStart 100#24, .respond .ok 0#32 none]) := by decide

theorem test_stop_continuous : shown (step (withEvent (.host 0x4#32) (inState .continuous []))) =
    some (.idle, [.timerStop, .respond .ok 0#32 none]) := by decide

theorem test_stop_awaiting : shown (step (withEvent (.host 0x4#32) (inState .awaitingSingle []))) =
    some (.idle, [.respond .ok 0#32 none]) := by decide

theorem test_setivl_continuous : shown (step (withEvent (.host 0xFA05#32) (inState .continuous []))) =
    some (.continuous, [.timerStop, .timerStart 250#24, .respond .ok 0#32 none]) := by decide

theorem test_setivl_idle : shown (step (withEvent (.host 0x5#32) (inState .idle []))) =
    some (.idle, [.respond .ok 0#32 none]) := by decide

theorem test_getivl : shown (step (withEvent (.host 0x6#32) (inState .continuous []))) =
    some (.continuous, [.respond .ok 0x64#32 none]) := by decide

theorem test_illegal_tick_from_host : shown (step (withEvent (.host 0x8#32) (inState .continuous []))) =
    some (.continuous, [.respond .errIllegal 0#32 none]) := by decide

theorem test_tick_idle : shown (step (withEvent .timer (inState .idle []))) =
    some (.idle, [.timerStop, .eventStatus .tick .ok none]) := by decide

theorem test_tick_continuous_err : shown (step (withEvent .timer (inState .continuous [nak]))) =
    some (.continuous, [.bus (.write [0x02#8, 0x01#8]) (.err err0), .eventStatus .tick .errTransport (some err0)]) := by decide

/-- P1: the block of W1 is notified with 243.43494882292202. -/
theorem test_drdy_valid : shown (step (withEvent .interrupt (inState .awaitingSingle [blockW1]))) =
    some (.idle, [.bus (.writeRead [0x03#8] 6) (.ok [0x00#8, 0x64#8, 0x00#8, 0x32#8, 0x00#8, 0xC8#8]),
      .notify { nAngle := 0x406E6DEB19CB3C48#64, nX := 0x0064#16, nY := 0x00C8#16, nZ := 0x0032#16 },
      .eventStatus .drdy .ok none]) := by decide +kernel

theorem test_drdy_err : shown (step (withEvent .interrupt (inState .awaitingSingle [nak]))) =
    some (.awaitingSingle, [.bus (.writeRead [0x03#8] 6) (.err err0), .eventStatus .drdy .errTransport (some err0)]) := by decide

theorem test_wrreg_err : shown (exec (.wrreg .mode 0x02#8) (inState .idle [nak])) =
    some (.idle, [.bus (.write [0x02#8, 0x02#8]) (.err err0), .unitReturn (.err err0)]) := by decide

theorem test_rdbyte : shown (exec (.rdbyte .idA) (inState .idle [.done (.ok [0x48#8])])) =
    some (.idle, [.bus (.writeRead [0x0A#8] 1) (.ok [0x48#8]), .unitReturn (.ok [0x48#8])]) := by decide

theorem test_rdblk : shown (exec (.rdblk .idA 2) (inState .idle [.done (.ok [0x48#8, 0x34#8])])) =
    some (.idle, [.bus (.writeRead [0x0A#8] 2) (.ok [0x48#8, 0x34#8]), .unitReturn (.ok [0x48#8, 0x34#8])]) := by decide

/-! ### Samples: V3, V4 -/

theorem test_axis_vectors :
    [(0x7F#8, 0xFF#8), (0x80#8, 0x00#8), (0x80#8, 0x05#8), (0xC0#8, 0x00#8), (0xEF#8, 0xFE#8), (0xEF#8, 0xFF#8), (0xF0#8, 0x00#8),
      (0xFF#8, 0x9B#8), (0xFF#8, 0xFF#8)].map (fun p => decodeAxis p.1 p.2) =
    [32767, -32767, -32762, -16383, -4097, -4096, -4095, -100, 0] := by decide

theorem test_block_order : decodeBlock [0x00#8, 0x03#8, 0x12#8, 0x34#8, 0x00#8, 0x07#8] = { x := 3, y := 7, z := 4660 } := by decide

theorem test_block_validity :
    validate (decodeBlock [0x00#8, 0x64#8, 0xEF#8, 0xFF#8, 0x00#8, 0xC8#8]) = false ∧
    validate (decodeBlock [0xF0#8, 0x00#8, 0x00#8, 0x00#8, 0x80#8, 0x00#8]) = true := by decide

/-- V10. -/
theorem test_notification_encoding : (sampleOf atanxDefault { x := -32762, y := -100, z := 16 }).encode =
    { nAngle := 0x3FC6629C05D30C00#64, nX := 0x8006#16, nY := 0xFF9C#16, nZ := 0x0010#16 } := by decide +kernel

/-! ### Angles: V5, V6, V7 -/

theorem test_angles_independent :
    [((1 : Int), (0 : Int)), (0, 0), (0, 1), (0, -1), (-1, 0), (-4095, -4095), (1, -1), (-32767, 32767)].map
      (fun p => (angle atanxDefault p.1 p.2).bits) =
    [0x4066800000000000#64, 0x4066800000000000#64, 0x4070E00000000000#64, 0x4056800000000000#64, 0x4076800000000000#64,
      0x4046800000000000#64, 0x4060E00000000000#64, 0x4073B00000000000#64] := by decide +kernel

theorem test_angles_default :
    [((100 : Int), (41 : Int)), (100, 42), (41, 100), (42, 100), (32767, -1), (-32767, -1), (-4095, -32767), (-3, 4)].map
      (fun p => (angle atanxDefault p.1 p.2).bits) =
    [0x4069496568FAC138#64, 0x4069590977BE13E6#64, 0x406EF69A97053EC8#64, 0x406EE6F68841EC1A#64, 0x40667FF1ACF54CCC#64,
      0x3F5CA615666A0000#64, 0x4054B8186A0B2954#64, 0x40732DEB19CB3C48#64] := by decide +kernel

/-- V7: the thresholds take the third branch; LIT4 differs. -/
theorem test_atans_thresholds :
    (atans atanxDefault sq2m1).bits = 0x3FD921FB54442D18#64 ∧ (atans atanxDefault sq2p1).bits = 0x3FF2D97C7F3321D2#64 ∧
    (angle { atanxDefault with form := .lit4 } 100 41).bits = 0x406949656DD258DB#64 := by decide +kernel

/-- R11 corner cases by hand: 2^53 + 1 ties to even, 1/3 rounds down, the largest number doubled is +infinity, the smallest halved is 0. -/
theorem test_binary64_corners :
    (F64.add ⟨0x4340000000000000#64⟩ oneF).bits = 0x4340000000000000#64 ∧
    (F64.div oneF ⟨0x4008000000000000#64⟩).bits = 0x3FD5555555555555#64 ∧
    (F64.add ⟨0x7FEFFFFFFFFFFFFF#64⟩ ⟨0x7FEFFFFFFFFFFFFF#64⟩).bits = 0x7FF0000000000000#64 ∧
    (F64.mul ⟨0x0000000000000001#64⟩ ⟨0x3FE0000000000000#64⟩).bits = 0#64 := by decide +kernel

/-! ### Witnesses: for each statement with hypotheses, a state and operands that meet them -/

/-- REQ waits in IDLE; its transfer is acknowledged. -/
def sReq : State := withEvent (.host 0x1#32) (inState .idle [ack])

/-- REQ waits in IDLE; its transfer fails. -/
def sReqErr : State := withEvent (.host 0x1#32) (inState .idle [nak])

/-- A TICK waits in CONTINUOUS; its transfer fails. -/
def sTickErr : State := withEvent .timer (inState .continuous [nak])

/-- A DRDY waits in AWAITING_SINGLE; the block of W1 is there. -/
def sDrdy : State := withEvent .interrupt (inState .awaitingSingle [blockW1])

/-- A DRDY waits in AWAITING_SINGLE; its transfer fails. -/
def sDrdyErr : State := withEvent .interrupt (inState .awaitingSingle [nak])

/-- A DRDY waits; its transfer never completes. -/
def sHung : State := withEvent .interrupt (inState .continuous [.never])

/-- GETIVL waits. -/
def sGetivl : State := withEvent (.host 0x6#32) (inState .continuous [])

/-- An all-zero word waits. -/
def sIllegal : State := withEvent (.host 0x0#32) (inState .continuous [])

/-- A transfer of no shape stands on the unit's own input. -/
def sBadUnit : State := { inState .idle [] with unitPort := some (.write []) }

theorem witness_StepKeepsRegInv : sReq.RegInv ∧ step sReq = .next (nextOr sReq (step sReq)) :=
  ⟨⟨by decide, by decide⟩, next_of_isNext (by decide)⟩

theorem witness_StepKeepsTraceInv :
    ({ sReq with trace := [.timerStop] } : State).TraceInv ∧
      isNext (step { sReq with trace := [.timerStop] }) = true :=
  ⟨⟨rfl, by simp [Output.Allowed]⟩, by decide⟩

/-- A run of two steps from reset, P1's, that notifies once. -/
def runP1 : Host.Outcome State Fault Refusal :=
  core.run 2 { State.reset with events := [.host 0x1#32, .interrupt], busAnswers := [ack, blockW1] }

theorem witness_ReachableStatesMeetInvariants :
    runP1 = .next (nextOr State.reset runP1) ∧ ((nextOr State.reset runP1).trace.filter Output.isNotify).length = 1 ∧
      isNext (step (nextOr State.reset runP1)) = true :=
  ⟨next_of_isNext (by decide +kernel), by decide +kernel, by decide +kernel⟩

theorem witness_StepRunsDecodedInstruction :
    (sReq.unitPort = none ∧ sReq.events = [.host 0x1#32] ∧ decodeEvent (.host 0x1#32) = .ok .req) ∧
    (sIllegal.unitPort = none ∧ sIllegal.events = [.host 0x0#32] ∧ decodeEvent (.host 0x0#32) = .error .reservedOp) ∧
    (({ sReq with unitPort := some (.write [0x02#8, 0x01#8]) } : State).unitPort = some (.write [0x02#8, 0x01#8]) ∧
      decodeBus .default (.write [0x02#8, 0x01#8]) = .ok (.wrreg .mode 0x01#8)) := by decide

theorem witness_IllegalWordsAreOnlyAnswered :
    sIllegal.unitPort = none ∧ sIllegal.events = [.host 0x0#32] ∧ ¬ LegalWord 0x0#32 ∧
      step sIllegal = .next (nextOr sIllegal (step sIllegal)) ∧
      .respond .errIllegal 0#32 none ∈ newOutputs sIllegal (nextOr sIllegal (step sIllegal)) :=
  ⟨rfl, rfl, by unfold LegalWord matchesRow; decide, next_of_isNext (by decide), by decide⟩

theorem default_distinct : Params.default.Distinct := by
  intro r r' h
  cases r <;> cases r' <;> first | rfl | exact absurd h (by decide)

theorem witness_EncodeThenDecode :
    (Instr.rdblk .dataXMsb 255).wellFormed = true ∧ Params.default.Distinct ∧ ∀ r, Instr.rdblk .dataXMsb 255 ≠ .rdblk r 1 :=
  ⟨by decide, default_distinct, fun r h => by cases h⟩

theorem witness_DecodeThenEncode : decode .default (.event (.host 0xFFFFFF05#32)) = .ok (.setivl 0xFFFFFF#24) := by decide

theorem witness_ReqWritesModeThenAwaits :
    (inState .idle [ack]).busReply 0 = some (.ok []) ∧ (inState .continuous [nak]).busReply 0 = some (.err err0) := by decide

theorem witness_SetgainWritesThenHolds :
    (inState .continuous [ack]).busReply 0 = some (.ok []) ∧ (inState .idle [nak]).busReply 0 = some (.err err0) := by decide

theorem witness_StopDisarmsTimer :
    exec .stop (inState .continuous []) = .next (nextOr State.reset (exec .stop (inState .continuous []))) ∧
    exec .stop (inState .awaitingSingle []) = .next (nextOr State.reset (exec .stop (inState .awaitingSingle []))) :=
  ⟨rfl, rfl⟩

theorem witness_TickRequestsOnlyInContinuous :
    ((inState .continuous [ack]).regs.ctrlState = .continuous ∧ (inState .continuous [ack]).busReply 0 = some (.ok [])) ∧
    ((inState .continuous [nak]).regs.ctrlState = .continuous ∧ (inState .continuous [nak]).busReply 0 = some (.err err0)) ∧
    (inState .awaitingSingle []).regs.ctrlState ≠ .continuous := by decide

theorem witness_DrdyReadsDecodesNotifies :
    (inState .idle [blockW1]).busReply 6 = some (.ok [0x00#8, 0x64#8, 0x00#8, 0x32#8, 0x00#8, 0xC8#8]) ∧
    (inState .continuous [nak]).busReply 6 = some (.err err0) := by decide

theorem witness_WrregSendsTwoBytes : (inState .idle [ack]).busReply 0 = some (.ok []) := by decide

theorem witness_RdbyteReadsOneByte :
    (inState .idle [.done (.ok [0x48#8])]).busReply 1 = some (.ok [0x48#8]) ∧
    (inState .idle [nak]).busReply 1 = some (.err err0) := by decide

theorem witness_RdblkReadsExactlyN :
    (inState .idle [.done (.ok [0x48#8])]).busReply 1 = some (.ok [0x48#8]) ∧
    (inState .idle [.done (.ok (List.replicate 255 0x00#8))]).busReply 255 = some (.ok (List.replicate 255 0x00#8)) ∧
    (0 = 0 ∨ 255 < 0) ∧ (256 = 0 ∨ 255 < 256) := by decide +kernel

theorem witness_WrongLengthAnswerIsError :
    ((inState .idle [blockW1]).busAnswers = .done (.ok [0x00#8, 0x64#8, 0x00#8, 0x32#8, 0x00#8, 0xC8#8]) :: [] ∧
      [0x00#8, 0x64#8, 0x00#8, 0x32#8, 0x00#8, 0xC8#8].length = 6) ∧
    (inState .idle [nak]).busAnswers = .done (.err err0) :: [] ∧
    ((inState .idle [ack]).busAnswers = .done (.ok []) :: [] ∧ ([] : List Byte).length ≠ 6) ∧
    (inState .idle []).busAnswers = [] := by decide

theorem witness_TransitionTableHolds :
    exec .req (inState .idle [nak]) = .next (nextOr State.reset (exec .req (inState .idle [nak]))) ∧
    transitionRow .default .req true (inState .idle [nak]).regs = some (.idle, [.write [0x02#8, 0x01#8]], []) ∧
    (sIllegal.unitPort = none ∧ sIllegal.events = [.host 0x0#32] ∧ ¬ LegalWord 0x0#32 ∧
      step sIllegal = .next (nextOr sIllegal (step sIllegal))) :=
  ⟨next_of_isNext (by decide), rfl, rfl, rfl, by unfold LegalWord matchesRow; decide, next_of_isNext (by decide)⟩

theorem witness_UnitCallsKeepRegisters :
    encode (inState .continuous [nak]).params (.rdblk .mode 255) = .bus (.writeRead [0x02#8] 255) ∧
    isNext (exec (.rdblk .mode 255) (inState .continuous [nak])) = true ∧
    encode (inState .continuous [ack]).params (.wrreg .mode 0#8) = .bus (.write [0x02#8, 0x00#8]) ∧
    isNext (exec (.wrreg .mode 0#8) (inState .continuous [ack])) = true := by decide

theorem witness_StepsKeepParameters :
    step sReq = .next (nextOr sReq (step sReq)) ∧ runP1 = .next (nextOr State.reset runP1) :=
  ⟨next_of_isNext (by decide), next_of_isNext (by decide +kernel)⟩

theorem witness_BusFailureKeepsRecord :
    step sDrdyErr = .next (nextOr sDrdyErr (step sDrdyErr)) ∧
      (newOutputs sDrdyErr (nextOr sDrdyErr (step sDrdyErr))).any Output.isFailure = true :=
  ⟨next_of_isNext (by decide), by decide⟩

theorem witness_TransportErrorOnlyFromFailedTransfer :
    [sReqErr, sTickErr, sDrdyErr].all (fun s => s.unitPort == none && s.events.length == 1 && isNext (step s) &&
      (newOutputs s (nextOr s (step s))).any Output.isFailure) = true ∧
    (decodeEvent (.host 0x1#32) = .ok .req ∧ sReqErr.busReply 0 = some (.err err0)) ∧
    (sTickErr.regs.ctrlState = .continuous ∧ sTickErr.busReply 0 = some (.err err0)) ∧
    sDrdyErr.busReply 6 = some (.err err0) := by decide

theorem witness_StepReportsOneStatus :
    [sReq, sIllegal, sTickErr, sDrdy].all (fun s => s.unitPort == none && s.events.length == 1 && isNext (step s)) = true := by
  decide

/-- From a STOP in CONTINUOUS: a TICK, a direct REQ and a TICK. -/
def runStop : Host.Outcome State Fault Refusal :=
  core.run 3 { nextOr State.reset (exec .stop (inState .continuous [ack])) with events := [.timer, .host 0x1#32, .timer] }

theorem witness_StopSilencesTicks :
    exec .stop (inState .continuous [ack]) = .next (nextOr State.reset (exec .stop (inState .continuous [ack]))) ∧
    (inState .continuous [ack]).unitPort = none ∧
    (∀ e ∈ [Event.timer, .host 0x1#32, .timer], decodeEvent e ≠ .ok .start) ∧
    3 ≤ [Event.timer, .host 0x1#32, .timer].length ∧ runStop = .next (nextOr State.reset runStop) :=
  ⟨rfl, rfl, by decide, by decide, next_of_isNext (by decide)⟩

theorem witness_StepIgnoresLaterEvents :
    (sDrdy.events ≠ [] ∧ isNext (step sDrdy) = true) ∧
    (({ sReq with unitPort := some (.write [0x02#8, 0x01#8]), events := [] } : State).unitPort ≠ none ∧
      isNext (step { sReq with unitPort := some (.write [0x02#8, 0x01#8]), events := [] }) = true) := by decide

/-- The same state with another gain and mode held. -/
def reheld (s : State) : State :=
  { s with regs := { s.regs with gainSet := true, gain := 5#3, lastModeValid := true, lastMode := .sleep } }

theorem witness_HeldGainAndModeAreInert :
    (SameButHeld sReq (reheld sReq) ∧ sReq ≠ reheld sReq ∧ core.run 1 sReq = .next (nextOr sReq (step sReq))) ∧
    (SameButHeld sHung (reheld sHung) ∧ core.run 1 sHung = .fault .busHang) ∧
    (SameButHeld sBadUnit (reheld sBadUnit) ∧ core.run 1 sBadUnit = .refused (.unknownTransfer .transferShape)) :=
  ⟨⟨rfl, by decide, rfl⟩, ⟨rfl, rfl⟩, ⟨rfl, rfl⟩⟩

theorem witness_ResponseDataIsInterval :
    (sGetivl.unitPort = none ∧ sGetivl.events = [.host 0x6#32] ∧ isNext (step sGetivl) = true ∧
      .respond .ok 100#32 none ∈ newOutputs sGetivl (nextOr sGetivl (step sGetivl)) ∧
      decodeEvent (.host 0x6#32) = .ok .getivl) ∧
    (sReq.unitPort = none ∧ sReq.events = [.host 0x1#32] ∧ isNext (step sReq) = true ∧
      .respond .ok 0#32 none ∈ newOutputs sReq (nextOr sReq (step sReq)) ∧ decodeEvent (.host 0x1#32) ≠ .ok .getivl) := by decide

theorem witness_HungTransferSticksStep :
    (sHung.Hung ∧ performsTransfer (.rdblk .mode 255) sHung ∧ performsTransfer .tick sHung) ∧
    exec .drdy sHung = .fault .busHang ∧ step sHung = .fault .busHang :=
  ⟨⟨rfl, by unfold performsTransfer; decide, rfl⟩, rfl, rfl⟩

theorem witness_LegalOperationsNeverRefused :
    (Instr.rdblk .mode 255).wellFormed = true ∧ sReq.unitPort = none ∧ sReq.events = [.host 0x1#32] ∧ LegalWord 0x1#32 ∧
      isNext (step sReq) = true ∧ .respond .ok 0#32 none ∈ newOutputs sReq (nextOr sReq (step sReq)) :=
  ⟨by decide, rfl, rfl, .inl (by unfold matchesRow; decide), by decide, by decide⟩

theorem witness_InstructionsCompleteUnlessHung :
    (Instr.rdblk .mode 1).wellFormed = true ∧ (Instr.rdblk .mode 255).wellFormed = true ∧ ¬ (inState .idle []).Hung :=
  ⟨by decide, by decide, by unfold State.Hung; decide⟩

theorem witness_OneNotificationPerValidBlock :
    exec .drdy sDrdy = .next (nextOr sDrdy (exec .drdy sDrdy)) ∧
      .notify { nAngle := 0x406E6DEB19CB3C48#64, nX := 0x0064#16, nY := 0x00C8#16, nZ := 0x0032#16 } ∈
        newOutputs sDrdy (nextOr sDrdy (exec .drdy sDrdy)) :=
  ⟨next_of_isNext (by decide), by decide +kernel⟩

theorem witness_StartIvlStartsAtInterval : (inState .continuous []).unitPort = none := rfl

theorem witness_DecodeAxisFollowsDeviceRule :
    (0x7F#8).toNat * 256 + (0xFF#8).toNat ≤ 0x7FFF ∧ 0x8000 ≤ (0x80#8).toNat * 256 + (0x00#8).toNat ∧
    (decodeAxis 0xEF#8 0xFF#8 = decodeAxis 0xEF#8 0xFF#8 ∧ decodeAxis 0xEF#8 0xFF#8 ≠ 0) := by decide

theorem witness_NotificationEncodesSample :
    ((-32767 : Int) ≤ -32767 ∧ (-32767 : Int) ≤ 32767 ∧ (-32767 : Int) ≤ 0 ∧ (0 : Int) ≤ 32767 ∧ (32767 : Int) ≤ 32767) ∧
    exec .drdy sDrdy = .next (nextOr sDrdy (exec .drdy sDrdy)) ∧
    .notify { nAngle := 0x406E6DEB19CB3C48#64, nX := 0x0064#16, nY := 0x00C8#16, nZ := 0x0032#16 } ∈
      newOutputs sDrdy (nextOr sDrdy (exec .drdy sDrdy)) :=
  ⟨by decide, witness_OneNotificationPerValidBlock⟩

theorem witness_SentinelPatternIsOnlyEFFF :
    ((({ x := 0, y := 0, z := -4096 } : RawSample).x = -4096 ∨ ({ x := 0, y := 0, z := -4096 } : RawSample).y = -4096 ∨
      ({ x := 0, y := 0, z := -4096 } : RawSample).z = -4096)) ∧
    ((0 : Int) ≠ -4096 ∧ (-4095 : Int) = decodeAxis 0xF0#8 0x00#8 ∧ (0xF0#8, 0x00#8) ≠ (0xEF#8, 0xFF#8)) := by decide

/-- The default coefficients are finite; each clause has its boundary input. -/
theorem witness_CoefficientIndependentAngles :
    atanxDefault.Finite ∧ ({ atanxDefault with form := .lit4 } : Atanx).Finite ∧
    [((0 : Int), (32767 : Int)), (0, 0), (0, -32767), (32767, 0), (-32767, 0), (32767, 32767), (32767, -32767), (-32767, -32767),
      (-32767, 32767)].all (fun p => decide (-32767 ≤ p.1 ∧ p.1 ≤ 32767 ∧ -32767 ≤ p.2 ∧ p.2 ≤ 32767)) = true :=
  ⟨⟨by decide, by decide, by decide +kernel⟩, ⟨by decide, by decide, by decide +kernel⟩, by decide⟩

theorem witness_AtanxIsOdd : (atanx atanxDefault oneF).isNaN = false := by decide +kernel

/-- Each branch of ATAN2 has its boundary input. -/
theorem witness_Atan2GuardsAreExact :
    [((0 : Int), (0 : Int)), (0, 32767), (0, -32767), (-32767, 0), (-1, -1), (1, 1), (32767, 0)].all
      (fun p => decide (-32767 ≤ p.1 ∧ p.1 ≤ 32767 ∧ -32767 ≤ p.2 ∧ p.2 ≤ 32767)) = true := by decide

theorem witness_IntegersConvertExactly : |(2 ^ 53 - 1 : Int)| < 2 ^ 53 ∧ |(-(2 ^ 53 - 1) : Int)| < 2 ^ 53 := by norm_num

/-- The largest finite number. -/
def maxF : F64 := ⟨0x7FEFFFFFFFFFFFFF#64⟩

theorem maxF_toRat : maxF.toRat = (2 ^ 53 - 1) * 2 ^ 971 := by
  have h : maxF.classify = .fin false (2 ^ 53 - 1) 971 := by decide
  simp only [F64.toRat, h, signed]
  norm_num

theorem oneF_toRat : oneF.toRat = 1 := by
  have h : oneF.classify = .fin false (2 ^ 52) (-52) := by decide
  simp only [F64.toRat, h, signed]
  norm_num

/-- The two large numbers in units of 2^970, which is at least 1. -/
theorem large_numbers : (1 : ℚ) ≤ 2 ^ 970 ∧ overflowBound = (2 ^ 54 - 1) * 2 ^ 970 ∧ maxF.toRat = (2 ^ 54 - 2) * 2 ^ 970 := by
  refine ⟨one_le_pow₀ (by norm_num), ?_, ?_⟩
  · rw [overflowBound, show (1024 : ℕ) = 54 + 970 from rfl, pow_add, sub_mul, one_mul]
  · rw [maxF_toRat, show (971 : ℕ) = 1 + 970 from rfl, pow_add]
    generalize (2 : ℚ) ^ 970 = p
    ring

/-- 2^970, half a step of the largest numbers. -/
def halfStepF : F64 := ⟨0x7C90000000000000#64⟩

theorem halfStepF_toRat : halfStepF.toRat = 2 ^ 970 := by
  have h : halfStepF.classify = .fin false (2 ^ 52) 918 := by decide
  simp only [F64.toRat, h, signed]
  rw [show (970 : ℕ) = 52 + 918 from rfl, pow_add]
  norm_num

theorem zeroF_toRat : zeroF.toRat = 0 ∧ zeroF.neg.toRat = 0 := by
  have h : zeroF.classify = .fin false 0 (-1074) ∧ zeroF.neg.classify = .fin true 0 (-1074) := by decide
  simp only [F64.toRat, h.1, h.2, signed]
  norm_num

/-- 3.0, and a third of the overflow bound. -/
def threeF : F64 := ⟨0x4008000000000000#64⟩

def thirdF : F64 := ⟨0x7FD5555555555555#64⟩

theorem thirdF_toRat : threeF.toRat = 3 ∧ thirdF.toRat = (2 ^ 54 - 1) / 3 * 2 ^ 970 := by
  have h : threeF.classify = .fin false (3 * 2 ^ 51) (-51) ∧ thirdF.classify = .fin false 6004799503160661 970 := by decide
  simp only [F64.toRat, h.1, h.2, signed]
  norm_num

/-- 0.5. -/
def halfF : F64 := ⟨0x3FE0000000000000#64⟩

theorem halfF_toRat : halfF.toRat = 1 / 2 := by
  have h : halfF.classify = .fin false (2 ^ 52) (-53) := by decide
  simp only [F64.toRat, h, signed]
  norm_num

/-- Below the bound and at it; a zero sum and one that is not, of `+` and of `-`. -/
theorem witness_AdditionRoundsOnce :
    (maxF.isFinite = true ∧ halfStepF.isFinite = true ∧ zeroF.isFinite = true ∧ zeroF.neg.isFinite = true) ∧
    |maxF.toRat + zeroF.toRat| < overflowBound ∧ overflowBound ≤ |maxF.toRat + halfStepF.toRat| ∧
    zeroF.neg.toRat + zeroF.neg.toRat = 0 ∧ maxF.toRat + halfStepF.toRat ≠ 0 ∧ maxF.toRat - maxF.toRat = 0 ∧
    maxF.toRat - halfStepF.toRat ≠ 0 := by
  obtain ⟨h1, h2, h3⟩ := large_numbers
  rw [h2, h3, halfStepF_toRat, zeroF_toRat.1, zeroF_toRat.2]
  generalize (2 : ℚ) ^ 970 = p at h1
  refine ⟨by decide, abs_lt.2 ⟨?_, ?_⟩, le_abs.2 (.inl ?_), by norm_num, ?_, by ring, ?_⟩
  · norm_num; linarith
  · norm_num; linarith
  · norm_num; linarith
  · apply ne_of_gt; norm_num; linarith
  · apply ne_of_gt; norm_num; linarith

/-- Below the bound and at it. -/
theorem witness_MultiplicationRoundsOnce :
    (maxF.isFinite = true ∧ oneF.isFinite = true ∧ threeF.isFinite = true ∧ thirdF.isFinite = true) ∧
    |maxF.toRat * oneF.toRat| < overflowBound ∧ overflowBound ≤ |threeF.toRat * thirdF.toRat| := by
  obtain ⟨h1, h2, h3⟩ := large_numbers
  rw [h2, h3, oneF_toRat, thirdF_toRat.1, thirdF_toRat.2]
  generalize (2 : ℚ) ^ 970 = p at h1
  refine ⟨by decide, abs_lt.2 ⟨?_, ?_⟩, le_abs.2 (.inl ?_)⟩ <;> norm_num <;> linarith

/-- Below the bound and beyond it (no quotient of two finite numbers is the bound itself). -/
theorem witness_DivisionRoundsOnce :
    (maxF.isFinite = true ∧ oneF.isFinite = true ∧ halfF.isFinite = true) ∧ oneF.toRat ≠ 0 ∧ halfF.toRat ≠ 0 ∧
    |maxF.toRat / oneF.toRat| < overflowBound ∧ overflowBound ≤ |maxF.toRat / halfF.toRat| := by
  obtain ⟨h1, h2, h3⟩ := large_numbers
  rw [h2, h3, oneF_toRat, halfF_toRat]
  generalize (2 : ℚ) ^ 970 = p at h1
  refine ⟨by decide, one_ne_zero, by norm_num, abs_lt.2 ⟨?_, ?_⟩, le_abs.2 (.inl ?_)⟩ <;> norm_num <;> linarith

theorem witness_ComparisonsFollowValues : maxF.isFinite = true ∧ oneF.isFinite = true := by decide

end Sys2Proof.Tests
end

section
/-! PROOFS of 10_state: the register record after reset, and the invariants (a) to (e) of every reachable state. -/

namespace Sys2Proof.Machine

/-! ### One step that completes, inverted once -/

/-- `StepEffect s r ev new`: a step that completes from `s` may leave the registers `r` and the event stream `ev` having added the
outputs `new`. -/
inductive StepEffect (s : State) : Regs → List Event → List Output → Prop where
  | wait (hp : s.unitPort = none) (he : s.events = []) : StepEffect s s.regs s.events []
  | illegal {e : Event} {rest : List Event} {why : DecodeError} (hp : s.unitPort = none) (he : s.events = e :: rest)
      (hd : decodeEvent e = .error why) : StepEffect s s.regs rest [.respond .errIllegal 0#32 none]
  | event {e : Event} {rest : List Event} {i : Instr} {r : Regs} {new : List Output} (hp : s.unitPort = none)
      (he : s.events = e :: rest) (hd : decodeEvent e = .ok i) (h : Effect i { s with events := rest } r new) :
      StepEffect s r rest new
  | unit {q : BusRequest} {i : Instr} {r : Regs} {new : List Output} (hp : s.unitPort = some q)
      (hd : decodeBus s.params q = .ok i) (h : Effect i { s with unitPort := none } r new) : StepEffect s r s.events new

/-- A step that completes leaves the parameters alone and the unit's input empty, adds to the trace, and has one of its effects. -/
theorem step_effect {s t : State} (h : step s = .next t) :
    t.params = s.params ∧ t.unitPort = none ∧ ∃ new, t.trace = s.trace ++ new ∧ StepEffect s t.regs t.events new := by
  obtain ⟨q, i, hp, hd, hs⟩ | ⟨q, why, hp, hd, hs⟩ | ⟨e, rest, i, hp, he, hd, hs⟩ | ⟨e, rest, why, hp, he, hd, hs⟩ | ⟨hp, he, hs⟩ :=
    step_cases s <;> rw [hs] at h
  · obtain ⟨hpar, hev, hu, new, ht, heff⟩ := exec_effect h
    exact ⟨hpar, hu, new, ht, hev ▸ .unit hp hd heff⟩
  · cases h
  · obtain ⟨hpar, hev, hu, new, ht, heff⟩ := exec_effect h
    exact ⟨hpar, hu.trans hp, new, ht, hev ▸ .event hp he hd heff⟩
  · cases h
    exact ⟨rfl, hp, _, rfl, .illegal hp he hd⟩
  · cases h
    exact ⟨rfl, hp, [], (List.append_nil _).symm, .wait hp he⟩

theorem step_keeps_params {s t : State} (h : step s = .next t) : t.params = s.params := (step_effect h).1

/-- What the event stream decodes to is never a transfer of the register-protocol unit. -/
theorem isEvent_of_decodeEvent {e : Event} {i : Instr} (h : decodeEvent e = .ok i) : i.isEvent = true := by
  cases e with
  | host w => obtain rfl | ⟨g, rfl⟩ | rfl | rfl | ⟨t, rfl⟩ | rfl := decodeHost_command h <;> rfl
  | timer => cases h; rfl
  | interrupt => cases h; rfl

/-! ### The register record (10_state R22, R25) -/

/-- A request neither enters nor leaves CONTINUOUS. -/
theorem Regs.requested_continuous (r : Regs) : r.ctrlState = .continuous ↔ r.requested.ctrlState = .continuous := by
  cases h : r.ctrlState <;> simp [h]

/-- A completed reading neither enters nor leaves CONTINUOUS. -/
theorem Regs.acquired_continuous (r : Regs) : r.ctrlState = .continuous ↔ r.acquired.ctrlState = .continuous := by
  cases h : r.ctrlState <;> simp [h]

theorem resetWith_regInv (p : Params) : (State.resetWith p).RegInv := ⟨by simp [State.resetWith, Regs.reset], nofun⟩

theorem Effect.keeps_regInv {i : Instr} {s : State} {r : Regs} {new : List Output} (h : Effect i s r new) (hs : s.RegInv) :
    (s.setRegs r).RegInv := by
  obtain ⟨harmed, hmode⟩ := hs
  cases h with
  | reqOk | tickOk => exact ⟨harmed.trans (Regs.requested_continuous _), fun _ => rfl⟩
  | drdyValid | drdyInvalid => exact ⟨harmed.trans (Regs.acquired_continuous _), hmode⟩
  | start | stopArmed | stopIdle => exact ⟨by simp, hmode⟩
  | gainOk | setivlArmed | setivlIdle | reqErr | gainErr | getivl | tickErr | tickStopped | drdyErr | wrregOk | wrregErr | rdbyteOk | rdbyteErr | rdblkOk
  | rdblkErr => exact ⟨harmed, hmode⟩

theorem StepEffect.keeps_regInv {s : State} {r : Regs} {ev : List Event} {new : List Output} (h : StepEffect s r ev new)
    (hs : s.RegInv) : (s.setRegs r).RegInv := by
  cases h with
  | wait | illegal => exact hs
  | event _ _ _ heff | unit _ _ heff => exact heff.keeps_regInv hs

theorem step_keeps_regInv {s t : State} (hs : s.RegInv) (h : step s = .next t) : t.RegInv := by
  obtain ⟨-, -, new, -, heff⟩ := step_effect h
  exact heff.keeps_regInv hs

/-! ### The trace (10_state R34, 40_register_protocol R127) -/

theorem decodeAxis_bounds (high low : Byte) : -32767 ≤ decodeAxis high low ∧ decodeAxis high low ≤ 32767 := by
  have hh := high.isLt
  have hl := low.isLt
  rw [decodeAxis_eq]
  split <;> omega

theorem validate_iff (r : RawSample) : validate r = true ↔ r.x ≠ -4096 ∧ r.y ≠ -4096 ∧ r.z ≠ -4096 := by
  simp [validate, Config.sentinel, and_assoc]

/-- A block the validation lets through is one the decoder can give. -/
theorem decodeBlock_valid {b : List Byte} (hv : validate (decodeBlock b) = true) : (decodeBlock b).Valid := by
  obtain ⟨hx, hy, hz⟩ := (validate_iff _).1 hv
  have bounds := decodeAxis_bounds
  exact ⟨⟨(bounds _ _).1, (bounds _ _).2, hx⟩, ⟨(bounds _ _).1, (bounds _ _).2, hy⟩, ⟨(bounds _ _).1, (bounds _ _).2, hz⟩⟩

theorem resetWith_traceInv (p : Params) : (State.resetWith p).TraceInv := ⟨rfl, nofun⟩

theorem Effect.outputs_allowed {i : Instr} {s : State} {r : Regs} {new : List Output} (h : Effect i s r new)
    (hi : i.isEvent = true) : ∀ o ∈ new, o.Allowed s.params := by
  cases h with
  | reqOk | reqErr | tickOk | tickErr => simp [Output.Allowed, ControllerTransfer, modeWrite]
  | gainOk | gainErr => simp [Output.Allowed, ControllerTransfer]
  | drdyValid _ hv => simpa [Output.Allowed, ControllerTransfer] using ⟨_, decodeBlock_valid hv, rfl⟩
  | drdyInvalid | drdyErr => simp [Output.Allowed, ControllerTransfer]
  | start | stopArmed | stopIdle | setivlArmed | setivlIdle | getivl | tickStopped => simp [Output.Allowed]
  | wrregOk | wrregErr | rdbyteOk | rdbyteErr | rdblkOk | rdblkErr => cases hi

/-- With nothing on the unit's input, a step emits only what the block may. -/
theorem StepEffect.outputs_allowed {s : State} {r : Regs} {ev : List Event} {new : List Output} (h : StepEffect s r ev new)
    (hport : s.unitPort = none) : ∀ o ∈ new, o.Allowed s.params := by
  cases h with
  | wait => exact nofun
  | illegal => simp [Output.Allowed]
  | event _ _ hd heff => exact heff.outputs_allowed (isEvent_of_decodeEvent hd)
  | unit hp => rw [hport] at hp; cases hp

theorem step_keeps_traceInv {s t : State} (hs : s.TraceInv) (h : step s = .next t) : t.TraceInv := by
  obtain ⟨hport, hold⟩ := hs
  obtain ⟨hparams, hu, new, ht, heff⟩ := step_effect h
  refine ⟨hu, ?_⟩
  rw [ht, hparams]
  exact List.forall_mem_append.2 ⟨hold, heff.outputs_allowed hport⟩

/-! ### At most one transfer a step (10_state R34 (e)) -/

@[simp] theorem transfersOf_nil : transfersOf [] = [] := rfl

@[simp] theorem transfersOf_cons (o : Output) (l : List Output) : transfersOf (o :: l) = o.transfer?.toList ++ transfersOf l := by
  cases h : o.transfer? <;> simp [transfersOf, h]

@[simp] theorem transfersOf_append (l l' : List Output) : transfersOf (l ++ l') = transfersOf l ++ transfersOf l' :=
  List.filterMap_append

theorem Effect.transfersOf_length_le {i : Instr} {s : State} {r : Regs} {new : List Output} (h : Effect i s r new) :
    (transfersOf new).length ≤ 1 := by
  cases h <;> simp [Output.transfer?]

theorem StepEffect.transfersOf_length_le {s : State} {r : Regs} {ev : List Event} {new : List Output}
    (h : StepEffect s r ev new) : (transfersOf new).length ≤ 1 := by
  cases h with
  | wait | illegal => simp [Output.transfer?]
  | event _ _ _ heff | unit _ _ heff => exact heff.transfersOf_length_le

theorem step_transfersOf_length_le {s t : State} (h : step s = .next t) :
    (transfersOf t.trace).length ≤ (transfersOf s.trace).length + 1 := by
  obtain ⟨-, -, new, ht, heff⟩ := step_effect h
  simpa [ht] using heff.transfersOf_length_le

/-! ### Reachable states -/

/-- What every state of a block built with the parameters `p` meets once it runs from reset. -/
def State.BlockInv (p : Params) (s : State) : Prop := s.params = p ∧ s.RegInv ∧ s.TraceInv

theorem step_keeps_blockInv {p : Params} (s t : State) (hs : s.BlockInv p) (h : step s = .next t) : t.BlockInv p := by
  obtain ⟨hp, hreg, htrace⟩ := hs
  exact ⟨(step_keeps_params h).trans hp, step_keeps_regInv hreg h, step_keeps_traceInv htrace h⟩

/-- The block invariant holds after any number of steps from reset, whatever events come and whatever the bus answers. -/
theorem reachable_blockInv {p : Params} {events : List Event} {answers : List BusAnswer} {n : Nat} {t : State}
    (h : core.run n { State.resetWith p with events := events, busAnswers := answers } = .next t) : t.BlockInv p := by
  refine run_induction step_keeps_blockInv n ?_ h
  exact ⟨rfl, resetWith_regInv p, resetWith_traceInv p⟩

theorem ctrlCode_cases (c : CtrlState) : ctrlCode c = 0#2 ∨ ctrlCode c = 1#2 ∨ ctrlCode c = 2#2 := by
  cases c <;> decide

/-- Each transfer of R127's list goes to an entry of `REG_ADDR`. -/
theorem ControllerTransfer.exists_regAddr {p : Params} {q : BusRequest} (h : ControllerTransfer p q) : ∃ reg : RegName,
    (∃ v, q = .write [regAddr p reg, v]) ∨ ∃ k, q = .writeRead [regAddr p reg] k := by
  obtain rfl | ⟨g, rfl⟩ | rfl := h
  · exact ⟨.mode, .inl ⟨_, rfl⟩⟩
  · exact ⟨p.gainReg, .inl ⟨_, rfl⟩⟩
  · exact ⟨.dataXMsb, .inr ⟨_, rfl⟩⟩

/-- Settles O5: the block invariant is kept by every step from reset; its trace part gives (c) and (d), and (e) holds of any state. -/
theorem reachableStatesMeetInvariants : Obligations.ReachableStatesMeetInvariants := by
  unfold Obligations.ReachableStatesMeetInvariants
  intro p events answers n t h
  obtain ⟨rfl, ⟨harmed, -⟩, -, htrace⟩ := reachable_blockInv h
  exact ⟨ctrlCode_cases _, harmed, fun _ hm => htrace _ hm, fun _ _ hq => ControllerTransfer.exists_regAddr (htrace _ hq),
    fun _ hu => step_transfersOf_length_le hu⟩

/-- Settles O1: each value is the one `Regs.reset` and `State.resetWith` write down, and `resetWith` uses its argument in `params` only. -/
theorem resetRecordAsSpecified : Obligations.ResetRecordAsSpecified := by
  unfold Obligations.ResetRecordAsSpecified
  exact ⟨rfl, rfl, rfl, rfl, rfl, rfl, rfl, rfl, fun _ => rfl⟩

end Sys2Proof.Machine
end

section
/-! PROOFS of 30_encoding: the data word of a response and the fields of a notification. -/

namespace Sys2Proof.Machine

/-! ### The outputs an instruction and a step add -/

theorem newOutputs_eq {s t : State} {new : List Output} (h : t.trace = s.trace ++ new) : newOutputs s t = new := by
  rw [newOutputs, h, List.drop_left]

theorem exec_newOutputs {i : Instr} {s t : State} (h : exec i s = .next t) : Effect i s t.regs (newOutputs s t) := by
  obtain ⟨-, -, -, new, ht, heff⟩ := exec_effect h
  rwa [newOutputs_eq ht]

theorem step_newOutputs {s t : State} (h : step s = .next t) : StepEffect s t.regs t.events (newOutputs s t) := by
  obtain ⟨-, -, new, ht, heff⟩ := step_effect h
  rwa [newOutputs_eq ht]

/-! ### The data word of a response (30_encoding R87) -/

theorem intervalData_toNat (t : Interval) : (intervalData t).toNat = t.toNat :=
  BitVec.toNat_setWidth_of_le (by decide)

/-- Only GETIVL answers with the interval; a response of any other instruction carries 0. -/
theorem Effect.respond_data {i : Instr} {s : State} {r : Regs} {new : List Output} {status : Status} {data : Word}
    {info : Option ErrInfo} (h : Effect i s r new) (hm : .respond status data info ∈ new) :
    (i = .getivl ∧ status = .ok ∧ data = intervalData s.regs.interval) ∨ (i ≠ .getivl ∧ data = 0#32) := by
  cases h with
  | getivl =>
    obtain ⟨rfl, rfl, -⟩ : status = .ok ∧ data = intervalData s.regs.interval ∧ info = none := by simpa using hm
    exact .inl ⟨rfl, rfl, rfl⟩
  | reqOk | reqErr | gainOk | gainErr | start | stopArmed | stopIdle | setivlArmed | setivlIdle =>
    simp only [List.mem_cons, List.not_mem_nil, reduceCtorEq, Output.respond.injEq, false_or, or_false] at hm
    obtain ⟨-, hdata, -⟩ := hm
    exact .inr ⟨nofun, hdata⟩
  | tickOk | tickErr | tickStopped | drdyValid | drdyInvalid | drdyErr | wrregOk | wrregErr | rdbyteOk | rdbyteErr | rdblkOk
  | rdblkErr => simp at hm

/-- The response of a step on an event: of the instruction the event decodes to, or ERR_ILLEGAL, whose data is 0. -/
theorem StepEffect.respond_data {s : State} {r : Regs} {ev rest : List Event} {new : List Output} {e : Event} {status : Status}
    {data : Word} {info : Option ErrInfo} (h : StepEffect s r ev new) (hport : s.unitPort = none) (hev : s.events = e :: rest)
    (hm : .respond status data info ∈ new) :
    (decodeEvent e = .ok .getivl ∧ status = .ok ∧ data = intervalData s.regs.interval) ∨
    (decodeEvent e ≠ .ok .getivl ∧ data = 0#32) := by
  cases h with
  | wait => cases hm
  | illegal hp he hd =>
    obtain ⟨rfl, rfl⟩ := List.cons.inj (hev.symm.trans he)
    obtain ⟨-, rfl, -⟩ : status = .errIllegal ∧ data = 0#32 ∧ info = none := by simpa using hm
    exact .inr ⟨by simp [hd], rfl⟩
  | event hp he hd heff =>
    obtain ⟨rfl, rfl⟩ := List.cons.inj (hev.symm.trans he)
    simpa [hd] using heff.respond_data hm
  | unit hp => rw [hport] at hp; cases hp

/-- Settles O31: of the effects an instruction can have, only GETIVL's has a response whose data is not 0. -/
theorem responseDataIsInterval : Obligations.ResponseDataIsInterval := by
  unfold Obligations.ResponseDataIsInterval
  intro s t e rest status data info hport hev hstep hm
  obtain ⟨hd, rfl, rfl⟩ | ⟨hd, rfl⟩ := (step_newOutputs hstep).respond_data hport hev hm
  · exact ⟨fun _ => ⟨rfl, intervalData_toNat _⟩, fun hne => absurd hd hne⟩
  · exact ⟨fun h => absurd h hd, fun _ => rfl⟩

/-! ### The fields of a notification (30_encoding R96) -/

/-- What the decoder can give fits the 16 bits of a notification's field. -/
theorem toInt_ofInt_of_reading {n : Int} (hlow : -32767 ≤ n) (hhigh : n ≤ 32767) : (BitVec.ofInt 16 n).toInt = n :=
  BitVec.toInt_ofInt_eq_self (by decide) (by omega) (by omega)

/-- Only a DRDY that read a valid block notifies, with that block's sample (41_sample_decoder R146, 43_sampling_controller R211). -/
theorem Effect.notify_mem {i : Instr} {s : State} {r : Regs} {new : List Output} {m : Notification} (h : Effect i s r new)
    (hm : .notify m ∈ new) : i = .drdy ∧ ∃ b, s.busReply 6 = some (.ok b) ∧ validate (decodeBlock b) = true ∧
      m = (sampleOf s.params.atanx (decodeBlock b)).encode := by
  cases h with
  | drdyValid hb hv => exact ⟨rfl, _, hb, hv, by simpa using hm⟩
  | reqOk | reqErr | gainOk | gainErr | start | stopArmed | stopIdle | setivlArmed | setivlIdle | getivl | tickOk | tickErr
  | tickStopped | drdyInvalid | drdyErr | wrregOk | wrregErr | rdbyteOk | rdbyteErr | rdblkOk | rdblkErr => simp at hm

/-- Settles O41: the readings fit 16 bits of two's complement, and the one effect that notifies is a DRDY's with a valid block. -/
theorem notificationEncodesSample : Obligations.NotificationEncodesSample := by
  unfold Obligations.NotificationEncodesSample
  constructor
  · intro a x y z hx hx' hy hy' hz hz'
    exact ⟨rfl, toInt_ofInt_of_reading hx hx', toInt_ofInt_of_reading hy hy', toInt_ofInt_of_reading hz hz'⟩
  · intro i s t m h hm
    obtain ⟨-, b, -, hv, rfl⟩ := (exec_newOutputs h).notify_mem hm
    exact ⟨decodeBlock b, decodeBlock_valid hv, rfl⟩

end Sys2Proof.Machine
end

section
/-! PROOFS of 41_sample_decoder: the device's sign rule, the sentinel's one pattern, the order of the axes and the validation. -/

namespace Sys2Proof.Machine

/-! ### The sign rule over the raw pattern (41_sample_decoder R141) -/

/-- The two bytes are the digits of the raw pattern, so they are the same where it is. -/
theorem bytes_eq_iff (h l h' l' : Byte) :
    h.toNat * 256 + l.toNat = h'.toNat * 256 + l'.toNat ↔ h = h' ∧ l = l' := by
  have hl := l.isLt
  have hl' := l'.isLt
  rw [← BitVec.toNat_inj, ← BitVec.toNat_inj]
  omega

theorem decodeAxis_of_le {high low : Byte} (hraw : high.toNat * 256 + low.toNat ≤ 0x7FFF) :
    decodeAxis high low = high.toNat * 256 + low.toNat := by
  rw [decodeAxis_eq, if_pos (by omega)]

theorem decodeAxis_of_ge {high low : Byte} (hraw : 0x8000 ≤ high.toNat * 256 + low.toNat) :
    decodeAxis high low = (high.toNat * 256 + low.toNat : Int) - 65535 := by
  rw [decodeAxis_eq, if_neg (by omega)]

/-- Where the sign bit is set, two's complement takes 65536 from the pattern. -/
theorem raw16_toInt_of_ge {high low : Byte} (hraw : 0x8000 ≤ high.toNat * 256 + low.toNat) :
    (raw16 high low).toInt = (high.toNat * 256 + low.toNat : Int) - 65536 := by
  rw [BitVec.toInt_eq_toNat_cond, raw16_toNat, if_neg (by omega)]
  push_cast
  rfl

/-- The two halves of the range meet in 0 only: a positive value is its pattern, a negative one its pattern less 65535. -/
theorem bytes_eq_of_decodeAxis_eq {h l h' l' : Byte} (heq : decodeAxis h l = decodeAxis h' l') (hne : decodeAxis h l ≠ 0) :
    h = h' ∧ l = l' := by
  have hh := h.isLt
  have hl := l.isLt
  have hh' := h'.isLt
  have hl' := l'.isLt
  rw [← bytes_eq_iff]
  rw [decodeAxis_eq] at hne
  rw [decodeAxis_eq, decodeAxis_eq] at heq
  split at heq <;> split at heq <;> omega

/-- Zero is where the two halves meet: the least pattern of the one, the greatest of the other. -/
theorem decodeAxis_eq_zero_iff (h l : Byte) :
    decodeAxis h l = 0 ↔ (h = 0x00#8 ∧ l = 0x00#8) ∨ (h = 0xFF#8 ∧ l = 0xFF#8) := by
  have hh := h.isLt
  have hl := l.isLt
  rw [← bytes_eq_iff, ← bytes_eq_iff, decodeAxis_eq]
  simp only [BitVec.toNat_ofNat]
  split <;> omega

/-- Settles O37: each half of the range by its equation, and the halves meet in 0 only. -/
theorem decodeAxisFollowsDeviceRule : Obligations.DecodeAxisFollowsDeviceRule := by
  unfold Obligations.DecodeAxisFollowsDeviceRule
  refine ⟨fun high low => ⟨decodeAxis_of_le, decodeAxis_of_ge, fun hraw => ?_, decodeAxis_bounds high low⟩,
    fun _ _ _ _ => bytes_eq_of_decodeAxis_eq, decodeAxis_eq_zero_iff⟩
  rw [decodeAxis_of_ge hraw, raw16_toInt_of_ge hraw]
  omega

/-! ### The sentinel and the validation (41_sample_decoder R144, R145) -/

theorem decodeAxis_EFFF : decodeAxis 0xEF#8 0xFF#8 = -4096 := by decide

/-- The sentinel is not 0, so it has the one pattern. -/
theorem decodeAxis_eq_sentinel_iff (high low : Byte) : decodeAxis high low = -4096 ↔ high = 0xEF#8 ∧ low = 0xFF#8 := by
  constructor
  · intro h
    exact bytes_eq_of_decodeAxis_eq (h.trans decodeAxis_EFFF.symm) (by rw [h]; decide)
  · rintro ⟨rfl, rfl⟩
    exact decodeAxis_EFFF

theorem validate_false_iff (r : RawSample) : validate r = false ↔ r.x = -4096 ∨ r.y = -4096 ∨ r.z = -4096 := by
  rw [← Bool.not_eq_true, validate_iff]
  tauto

/-- Settles O38: the sentinel's one pattern, and the validation compares each decoded axis with it. -/
theorem sentinelPatternIsOnlyEFFF : Obligations.SentinelPatternIsOnlyEFFF := by
  unfold Obligations.SentinelPatternIsOnlyEFFF
  refine ⟨decodeAxis_eq_sentinel_iff, by decide, rfl, fun r => (validate_false_iff r).2, ?_⟩
  intro h l r hx hy hz hpattern
  have hz' : r.z ≠ -4096 := by
    rw [hz, Ne, decodeAxis_eq_sentinel_iff, ← Prod.mk.injEq]
    exact hpattern
  exact (validate_iff r).2 ⟨hx, hy, hz'⟩

/-- Settles O40: the validation's equivalence, read on the three axes. -/
theorem anySentinelAxisInvalidates : Obligations.AnySentinelAxisInvalidates := by
  unfold Obligations.AnySentinelAxisInvalidates
  intro x y z
  rw [← validate_false_iff { x := x, y := y, z := z }, Bool.not_eq_false]

/-! ### The order of the axes (41_sample_decoder R142) -/

/-- Settles O39: the decoder takes its axes from the six positions of the block. -/
theorem blockOrderIsXZY : Obligations.BlockOrderIsXZY := by
  unfold Obligations.BlockOrderIsXZY
  intro b0 b1 b2 b3 b4 b5
  rfl

end Sys2Proof.Machine
end

section
/-! PROOFS of 43_sampling_controller: the commands and events one by one, the transition table, and what holds along whole runs. -/

namespace Sys2Proof.Machine

/-! ### The commands and events one by one (43_sampling_controller R191 to R211) -/

/-- A failed transfer, as an update of the state: no register changes. -/
theorem withTransfer_err_eq {who : Initiator} {q : BusRequest} {s : State} {go : List Byte → State → State} {e : ErrInfo}
    (h : s.busReply (readCount q) = some (.err e)) :
    withTransfer who q s go = .next { s with
      busAnswers := s.busAnswers.tail
      transfers := s.transfers + 1
      trace := s.trace ++ [.bus q (.err e), errorOutput who e] } := by
  rw [withTransfer_err h]
  simp [State.ext_iff]

/-- A transfer that completed, the registers it leaves and its report, as an update of the state. -/
theorem finish_setRegs_transferred (who : Initiator) (result : BusResult) (r : Regs) (q : BusRequest) (answer : BusResult)
    (s : State) : ((s.transferred q answer).setRegs r).finish who result = { s with
      regs := r
      busAnswers := s.busAnswers.tail
      transfers := s.transfers + 1
      trace := s.trace ++ [.bus q answer, finishOutput who result] } := by
  simp [State.ext_iff]

/-- Settles O12: one mode write, whose two outcomes are `withTransfer`'s. -/
theorem reqWritesModeThenAwaits : Obligations.ReqWritesModeThenAwaits := by
  unfold Obligations.ReqWritesModeThenAwaits
  refine ⟨fun _ => rfl, fun s => ⟨fun bytes h => ?_, fun e h => ?_⟩⟩
  · rw [exec_req, withTransfer_ok (q := modeWrite s.params) h, finish_setRegs_transferred]
    refine congrArg _ (State.ext rfl (Regs.ext ?_ rfl rfl rfl rfl rfl rfl) rfl rfl rfl rfl rfl)
    cases hc : s.regs.ctrlState <;> simp [hc]
  · rw [exec_req]
    exact withTransfer_err_eq (q := modeWrite s.params) h

/-- Settles O13: one gain write, whose two outcomes are `withTransfer`'s. -/
theorem setgainWritesThenHolds : Obligations.SetgainWritesThenHolds := by
  unfold Obligations.SetgainWritesThenHolds
  intro g s
  refine ⟨fun _ => rfl, fun bytes h => ?_, fun e h => ?_⟩
  · rw [exec_setgain, withTransfer_ok (q := .write _) h, finish_setRegs_transferred]
    rfl
  · rw [exec_setgain]
    exact withTransfer_err_eq (q := .write _) h

/-- Settles O14: `exec_start`, with the record's two updated registers and the trace written out. -/
theorem startArmsTimer : Obligations.StartArmsTimer := by
  unfold Obligations.StartArmsTimer
  refine ⟨fun _ => rfl, fun s => ?_⟩
  rw [exec_start]
  simp [State.ext_iff, finishOutput]

/-- STOP as an update of the state (R201). -/
theorem exec_stop_eq (s : State) : exec .stop s = .next { s with
    regs := { s.regs with ctrlState := .idle, armed := false }
    trace := s.trace ++ ((if s.regs.armed then [.timerStop] else []) ++ [.respond .ok 0#32 none]) } := by
  rw [exec_stop]
  simp [State.ext_iff, finishOutput]

/-- Settles O15: after the first STOP the registers already are those a STOP leaves. -/
theorem stopDisarmsTimer : Obligations.StopDisarmsTimer := by
  unfold Obligations.StopDisarmsTimer
  refine ⟨fun _ => rfl, exec_stop_eq, fun s t h => ?_⟩
  rw [exec_stop_eq] at h
  cases h
  exact exec_stop_eq _

/-- Settles O16: the timer is restarted where it is armed, and only there. -/
theorem setivlStoresInterval : Obligations.SetivlStoresInterval := by
  unfold Obligations.SetivlStoresInterval
  intro t s
  refine ⟨fun _ => rfl, ?_⟩
  cases ha : s.regs.armed with
  | true =>
    rw [exec_setivl_armed ha]
    simp [State.ext_iff, finishOutput, ha]
  | false =>
    rw [exec_setivl_idle ha]
    simp [State.ext_iff, finishOutput, ha]

/-- Settles O17: `exec_getivl`, in any state and at reset. -/
theorem getivlAnswersInterval : Obligations.GetivlAnswersInterval := by
  unfold Obligations.GetivlAnswersInterval
  exact ⟨fun _ => rfl, exec_getivl, exec_getivl State.reset⟩

/-- Outside CONTINUOUS a TICK stops the timer and does nothing else (R208). -/
theorem exec_tick_only_stops {s : State} (h : s.regs.ctrlState ≠ .continuous) :
    exec .tick s = .next { s with trace := s.trace ++ [.timerStop, .eventStatus .tick .ok none] } := by
  rw [exec_tick_stopped h]
  simp [State.ext_iff, finishOutput]

/-- A request made in CONTINUOUS stays there. -/
theorem Regs.requested_of_continuous {r : Regs} (h : r.ctrlState = .continuous) :
    r.requested = { r with lastModeValid := true, lastMode := .singleShot } := by
  simp [Regs.ext_iff, h]

/-- Settles O18: a mode write in CONTINUOUS, whose two outcomes are `withTransfer`'s; elsewhere `exec_tick_only_stops`. -/
theorem tickRequestsOnlyInContinuous : Obligations.TickRequestsOnlyInContinuous := by
  unfold Obligations.TickRequestsOnlyInContinuous
  refine ⟨fun _ => rfl, rfl, fun s => ⟨fun bytes hc h => ?_, fun e hc h => ?_, exec_tick_only_stops⟩⟩
  · rw [exec_tick_continuous hc, withTransfer_ok (q := modeWrite s.params) h, finish_setRegs_transferred,
      State.transferred_regs, Regs.requested_of_continuous hc]
    rfl
  · rw [exec_tick_continuous hc]
    exact withTransfer_err_eq (q := modeWrite s.params) h

/-- What DRDY notifies of a block of six bytes: nothing where an axis is the sentinel, else the block's sample. -/
theorem notify_block (c : Atanx) (b0 b1 b2 b3 b4 b5 : Byte) :
    (if validate (decodeBlock [b0, b1, b2, b3, b4, b5]) then
      [Output.notify (sampleOf c (decodeBlock [b0, b1, b2, b3, b4, b5])).encode] else []) =
    if decodeAxis b0 b1 = -4096 ∨ decodeAxis b4 b5 = -4096 ∨ decodeAxis b2 b3 = -4096 then []
    else [.notify {
      nAngle := (angle c (decodeAxis b0 b1) (decodeAxis b4 b5)).bits
      nX := BitVec.ofInt 16 (decodeAxis b0 b1)
      nY := BitVec.ofInt 16 (decodeAxis b4 b5)
      nZ := BitVec.ofInt 16 (decodeAxis b2 b3) }] := by
  have hsentinel : validate (decodeBlock [b0, b1, b2, b3, b4, b5]) = false ↔
      decodeAxis b0 b1 = -4096 ∨ decodeAxis b4 b5 = -4096 ∨ decodeAxis b2 b3 = -4096 := validate_false_iff _
  simp only [← hsentinel]
  cases validate (decodeBlock [b0, b1, b2, b3, b4, b5]) <;> rfl

/-- Settles O19: one block read, whose two outcomes are `withTransfer`'s, and `notify_block` for what is notified. -/
theorem drdyReadsDecodesNotifies : Obligations.DrdyReadsDecodesNotifies := by
  unfold Obligations.DrdyReadsDecodesNotifies
  refine ⟨fun _ => rfl, rfl, fun s => ⟨fun b0 b1 b2 b3 b4 b5 h => ?_, fun e h => ?_⟩⟩
  · rw [exec_drdy, withTransfer_ok (q := .writeRead _ 6) h, ← notify_block]
    refine congrArg _ (State.ext (by simp) (Regs.ext ?_ (by simp) (by simp) (by simp) (by simp) (by simp) (by simp)) (by simp)
      (by simp) (by simp) (by simp) (by simp [finishOutput]))
    cases hc : s.regs.ctrlState <;> simp [hc]
  · rw [exec_drdy]
    exact withTransfer_err_eq (q := .writeRead _ 6) h

/-! ### Legal host words (30_encoding R85, 43_sampling_controller R207) -/

theorem full_mask (w v : Word) : w &&& 0xFFFFFFFF#32 = v ↔ w.toNat = v.toNat := by
  rw [show 0xFFFFFFFF#32 = BitVec.allOnes 32 by decide, BitVec.and_allOnes, BitVec.toNat_inj]

/-- The CMD rows over the word as a number. -/
theorem legalWord_iff (w : Word) : LegalWord w ↔
    w.toNat = 1 ∨ (w.toNat % 16 = 2 ∧ w.toNat / 128 = 0) ∨ w.toNat = 3 ∨ w.toNat = 4 ∨ w.toNat % 256 = 5 ∨ w.toNat = 6 := by
  simp [LegalWord, matchesRow, full_mask, setgain_mask, setivl_mask]

/-- The host decoder accepts exactly the legal words. -/
theorem decodeHost_ok_iff (w : Word) : (∃ i, decodeHost w = .ok i) ↔ LegalWord w := by
  rw [legalWord_iff, decodeHost_eq]
  split_ifs <;> simp <;> omega

theorem decodeHost_error_of_not_legal {w : Word} (h : ¬ LegalWord w) : ∃ why, decodeHost w = .error why := by
  cases hd : decodeHost w with
  | ok i => exact absurd ((decodeHost_ok_iff w).1 ⟨i, hd⟩) h
  | error why => exact ⟨why, rfl⟩

/-- An illegal word is answered and does nothing else (R207). -/
theorem step_of_not_legal {s : State} {w : Word} {rest : List Event} (hport : s.unitPort = none) (hev : s.events = .host w :: rest)
    (hw : ¬ LegalWord w) : step s = .next (State.illegal { s with events := rest }) := by
  obtain ⟨why, hd⟩ := decodeHost_error_of_not_legal hw
  rw [step_event hport hev, runCode_illegal (why := why)]
  exact hd

/-! ### The transition table (43_sampling_controller R214) -/

/-- An event's effect is the row of the table for it, where its transfer failed and where it did not. -/
theorem Effect.transitionRow_eq {i : Instr} {s : State} {r : Regs} {new : List Output} (h : Effect i s r new)
    (hi : i.isEvent = true) : transitionRow s.params i (new.any Output.isFailure) s.regs =
      some (r.ctrlState, transfersOf new, new.filter Output.isTimer) := by
  cases h with
  | reqOk | drdyValid | drdyInvalid =>
    cases hc : s.regs.ctrlState <;> simp [transitionRow, hc, Output.isFailure, Output.transfer?, Output.isTimer, modeWrite]
  | tickOk hc | tickErr hc => simp [transitionRow, hc, Output.transfer?, Output.isTimer, modeWrite]
  | tickStopped hc =>
    cases hs : s.regs.ctrlState with
    | continuous => exact absurd hs hc
    | idle | awaitingSingle => simp [transitionRow, hs, Output.transfer?, Output.isTimer, List.filter_cons]
  | stopArmed ha | stopIdle ha | setivlArmed ha | setivlIdle ha =>
    simp [transitionRow, ha, Output.transfer?, Output.isTimer, List.filter_cons]
  | reqErr | drdyErr | gainOk | gainErr | start | getivl =>
    simp [transitionRow, Output.isFailure, Output.transfer?, Output.isTimer, modeWrite, List.filter_cons]
  | wrregOk | wrregErr | rdbyteOk | rdbyteErr | rdblkOk | rdblkErr => cases hi

/-- A direct call of the unit has no row. -/
theorem isEvent_of_transitionRow {p : Params} {i : Instr} {failed : Bool} {r : Regs} {row : CtrlState × List BusRequest × List Output}
    (h : transitionRow p i failed r = some row) : i.isEvent = true := by
  cases i with
  | wrreg | rdbyte | rdblk => cases h
  | req | setgain | start | stop | setivl | getivl | tick | drdy => rfl

/-- START arms the timer, STOP disarms it, and nothing else does either. -/
theorem Effect.armed {i : Instr} {s : State} {r : Regs} {new : List Output} (h : Effect i s r new) :
    (i = .start → r.armed = true) ∧ (i = .stop → r.armed = false) ∧ (i ≠ .start → i ≠ .stop → r.armed = s.regs.armed) := by
  cases h with
  | start => exact ⟨fun _ => rfl, nofun, fun hi => absurd rfl hi⟩
  | stopArmed | stopIdle => exact ⟨nofun, fun _ => rfl, fun _ hi => absurd rfl hi⟩
  | reqOk | reqErr | gainOk | gainErr | setivlArmed | setivlIdle | getivl | tickOk | tickErr | tickStopped | drdyValid | drdyInvalid
  | drdyErr | wrregOk | wrregErr | rdbyteOk | rdbyteErr | rdblkOk | rdblkErr => exact ⟨nofun, nofun, fun _ _ => rfl⟩

/-- Settles O24: each effect is its row (`Effect.transitionRow_eq`), and an illegal word only gets its response. -/
theorem transitionTableHolds : Obligations.TransitionTableHolds := by
  unfold Obligations.TransitionTableHolds
  constructor
  · intro i s t h row hrow
    have heff := exec_newOutputs h
    rw [heff.transitionRow_eq (isEvent_of_transitionRow hrow)] at hrow
    exact ⟨Option.some.inj hrow, heff.armed⟩
  · intro s t w rest hport hev hw h
    rw [step_of_not_legal hport hev hw] at h
    cases h
    rw [newOutputs_eq (s := s) (State.illegal_trace { s with events := rest })]
    exact ⟨rfl, rfl, rfl⟩

/-! ### A failed transfer (43_sampling_controller R217) -/

theorem Effect.regs_of_failure {i : Instr} {s : State} {r : Regs} {new : List Output} (h : Effect i s r new)
    (hf : new.any Output.isFailure = true) : r = s.regs := by
  cases h with
  | reqErr | gainErr | getivl | tickErr | tickStopped | drdyErr | wrregOk | wrregErr | rdbyteOk | rdbyteErr | rdblkOk
  | rdblkErr => rfl
  | reqOk | gainOk | start | stopArmed | stopIdle | setivlArmed | setivlIdle | tickOk | drdyValid | drdyInvalid =>
    simp [Output.isFailure] at hf

/-- Settles O25: the effects with a failed transfer among their outputs leave the registers. -/
theorem busFailureKeepsRecord : Obligations.BusFailureKeepsRecord := by
  unfold Obligations.BusFailureKeepsRecord
  intro s t h hf
  have heff := step_newOutputs h
  generalize newOutputs s t = new at heff hf
  generalize t.regs = r, t.events = ev at heff ⊢
  cases heff with
  | wait | illegal => rfl
  | event _ _ _ h | unit _ _ h => exact h.regs_of_failure hf

/-! ### No refusal (43_sampling_controller R216) -/

theorem withTransfer_ne_refused (who : Initiator) (q : BusRequest) (s : State) (go : List Byte → State → State) (r : Refusal) :
    withTransfer who q s go ≠ .refused r := by
  obtain ⟨b, -, hw⟩ | ⟨e, -, hw⟩ | ⟨-, hw⟩ := withTransfer_cases who q s go <;> rw [hw] <;> exact nofun

theorem exec_ne_refused {i : Instr} (hi : i.wellFormed = true) (s : State) (r : Refusal) : exec i s ≠ .refused r := by
  cases i with
  | req => rw [exec_req]; exact withTransfer_ne_refused _ _ _ _ _
  | setgain g => rw [exec_setgain]; exact withTransfer_ne_refused _ _ _ _ _
  | drdy => rw [exec_drdy]; exact withTransfer_ne_refused _ _ _ _ _
  | wrreg reg v => rw [exec_wrreg]; exact withTransfer_ne_refused _ _ _ _ _
  | rdbyte reg => rw [exec_rdbyte]; exact withTransfer_ne_refused _ _ _ _ _
  | rdblk reg n =>
    rw [exec_rdblk (of_decide_eq_true hi)]
    exact withTransfer_ne_refused _ _ _ _ _
  | tick =>
    by_cases hc : s.regs.ctrlState = .continuous
    · rw [exec_tick_continuous hc]
      exact withTransfer_ne_refused _ _ _ _ _
    · rw [exec_tick_stopped hc]
      exact nofun
  | start | stop | setivl | getivl => exact nofun

theorem wellFormed_of_isEvent {i : Instr} (hi : i.isEvent = true) : i.wellFormed = true := by
  cases i with
  | rdblk => cases hi
  | req | setgain | start | stop | setivl | getivl | tick | drdy | wrreg | rdbyte => rfl

/-- A decoded instruction never reports ERR_ILLEGAL. -/
theorem Effect.status_ne_illegal {i : Instr} {s : State} {r : Regs} {new : List Output} (h : Effect i s r new) :
    ∀ o ∈ new, o.status? ≠ some .errIllegal := by
  cases h <;> simp [Output.status?]

/-- Settles O33: what the event stream decodes to is well formed, no well-formed instruction is refused, and a legal word decodes. -/
theorem legalOperationsNeverRefused : Obligations.LegalOperationsNeverRefused := by
  unfold Obligations.LegalOperationsNeverRefused
  refine ⟨fun i s r hi => exec_ne_refused hi s r, fun s r hport => ?_, fun s t w rest o hport hev hw h ho => ?_⟩
  · obtain ⟨q, i, hp, -⟩ | ⟨q, why, hp, -⟩ | ⟨e, rest, i, -, -, hd, hs⟩ | ⟨e, rest, why, -, -, -, hs⟩ | ⟨-, -, hs⟩ :=
      step_cases s
    · rw [hport] at hp; cases hp
    · rw [hport] at hp; cases hp
    · rw [hs]
      exact exec_ne_refused (wellFormed_of_isEvent (isEvent_of_decodeEvent hd)) _ r
    · rw [hs]; exact nofun
    · rw [hs]; exact nofun
  · obtain ⟨i, hd⟩ := (decodeHost_ok_iff w).2 hw
    have hstep : step s = exec i { s with events := rest } := (step_event hport hev).trans (runCode_ok (by exact hd))
    exact (exec_newOutputs (hstep.symm.trans h)).status_ne_illegal o ho

/-! ### After STOP (43_sampling_controller R202) -/

/-- A state in which a TICK makes no request: not in CONTINUOUS, with nothing on the unit's own input. -/
def State.Stopped (s : State) : Prop := s.unitPort = none ∧ s.regs.ctrlState ≠ .continuous

/-- Only START enters CONTINUOUS. -/
theorem Effect.not_continuous {i : Instr} {s : State} {r : Regs} {new : List Output} (h : Effect i s r new) (hi : i ≠ .start)
    (hc : s.regs.ctrlState ≠ .continuous) : r.ctrlState ≠ .continuous := by
  cases h with
  | reqOk | tickOk => exact (Regs.requested_continuous _).not.1 hc
  | drdyValid | drdyInvalid => exact (Regs.acquired_continuous _).not.1 hc
  | start => exact absurd rfl hi
  | stopArmed | stopIdle => exact nofun
  | gainOk | setivlArmed | setivlIdle | reqErr | gainErr | getivl | tickErr | tickStopped | drdyErr | wrregOk | wrregErr | rdbyteOk
  | rdbyteErr | rdblkOk | rdblkErr => exact hc

/-- Outside CONTINUOUS an event makes the transfers it asks for itself, failed or not, and a TICK none. -/
theorem Effect.transfersOf_eq_own {e : Event} {i : Instr} {s : State} {r : Regs} {new : List Output} (h : Effect i s r new)
    (hd : decodeEvent e = .ok i) (hc : s.regs.ctrlState ≠ .continuous) : transfersOf new = ownTransfers s.params e := by
  cases h with
  | tickOk hct | tickErr hct => exact absurd hct hc
  | reqOk | reqErr | gainOk | gainErr | drdyValid | drdyInvalid | drdyErr => simp [ownTransfers, hd, Output.transfer?, modeWrite]
  | start | stopArmed | stopIdle | setivlArmed | setivlIdle | getivl | tickStopped => simp [ownTransfers, hd, Output.transfer?]
  | wrregOk | wrregErr | rdbyteOk | rdbyteErr | rdblkOk | rdblkErr => cases isEvent_of_decodeEvent hd

/-- One event other than START: a stopped block stays stopped, and makes only the event's own transfers. -/
theorem StepEffect.of_stopped {s : State} {r : Regs} {ev rest : List Event} {new : List Output} {e : Event}
    (h : StepEffect s r ev new) (hs : s.Stopped) (hev : s.events = e :: rest) (hstart : decodeEvent e ≠ .ok .start) :
    ev = rest ∧ r.ctrlState ≠ .continuous ∧ transfersOf new = ownTransfers s.params e := by
  obtain ⟨hport, hc⟩ := hs
  cases h with
  | wait hp he => rw [he] at hev; cases hev
  | illegal hp he hd =>
    obtain ⟨rfl, rfl⟩ := List.cons.inj (hev.symm.trans he)
    exact ⟨rfl, hc, by simp [ownTransfers, hd, Output.transfer?]⟩
  | event hp he hd heff =>
    obtain ⟨rfl, rfl⟩ := List.cons.inj (hev.symm.trans he)
    exact ⟨rfl, heff.not_continuous (fun hi => hstart (hi ▸ hd)) hc, heff.transfersOf_eq_own hd hc⟩
  | unit hp => rw [hport] at hp; cases hp

/-- A run over events with no START among them. -/
theorem run_of_stopped (n : Nat) {s t : State} (hs : s.Stopped) (hstart : ∀ e ∈ s.events, decodeEvent e ≠ .ok .start)
    (hn : n ≤ s.events.length) (h : core.run n s = .next t) :
    t.Stopped ∧ ∃ new, t.trace = s.trace ++ new ∧ transfersOf new = (s.events.take n).flatMap (ownTransfers s.params) := by
  induction n generalizing s with
  | zero => cases h; exact ⟨hs, [], by simp, by simp⟩
  | succ n ih =>
    obtain ⟨u, hu, ht⟩ := run_succ_next h
    obtain ⟨hparams, hport, new, htrace, heff⟩ := step_effect hu
    obtain ⟨e, rest, hev⟩ := List.exists_cons_of_length_pos (Nat.lt_of_lt_of_le n.succ_pos hn)
    rw [hev] at hstart hn
    obtain ⟨hrest, hc, hown⟩ := heff.of_stopped hs hev (hstart e List.mem_cons_self)
    obtain ⟨hstop, new', htrace', hown'⟩ := ih ⟨hport, hc⟩ (hrest ▸ fun e' he' => hstart e' (List.mem_cons_of_mem e he'))
      (hrest ▸ Nat.le_of_succ_le_succ hn) ht
    refine ⟨hstop, new ++ new', by rw [htrace', htrace, List.append_assoc], ?_⟩
    rw [transfersOf_append, hown, hown', hev, hrest, hparams, List.take_succ_cons, List.flatMap_cons]

theorem exec_stop_idle {s t : State} (h : exec .stop s = .next t) : t.regs.ctrlState = .idle := by
  rw [exec_stop_eq] at h
  cases h
  rfl

/-- Settles O28: outside CONTINUOUS no event but START enters it or makes a transfer it does not ask for itself, by induction on
the steps. -/
theorem stopSilencesTicks : Obligations.StopSilencesTicks := by
  unfold Obligations.StopSilencesTicks
  intro s s0 t events n hstop hport hstart hn hrun
  obtain ⟨hparams, -, hunit, -⟩ := exec_effect hstop
  have hstopped : State.Stopped { s0 with events := events } := ⟨hunit.trans hport, by simp [exec_stop_idle hstop]⟩
  obtain ⟨⟨-, hc⟩, new, htrace, hown⟩ := run_of_stopped n hstopped hstart hn hrun
  refine ⟨hc, ?_, exec_tick_only_stops hc⟩
  rw [newOutputs_eq (s := s0) htrace, hown, ← hparams]

/-! ### The held gain and the last mode (43_sampling_controller R196, 10_state R24, R25) -/

/-- `SameButHeld`, field by field. -/
theorem sameButHeld_iff {s t : State} : SameButHeld s t ↔
    t.params = s.params ∧
    (t.regs.ctrlState = s.regs.ctrlState ∧ t.regs.armed = s.regs.armed ∧ t.regs.interval = s.regs.interval) ∧
    t.events = s.events ∧ t.unitPort = s.unitPort ∧ t.busAnswers = s.busAnswers ∧ t.transfers = s.transfers ∧
    t.trace = s.trace := by
  simp [SameButHeld, State.ext_iff, Regs.ext_iff]

section
variable {s s' : State} (h : SameButHeld s s')
include h

theorem SameButHeld.params : s'.params = s.params := (congrArg State.params h :)

theorem SameButHeld.ctrlState : s'.regs.ctrlState = s.regs.ctrlState := (congrArg (·.regs.ctrlState) h :)

theorem SameButHeld.armed : s'.regs.armed = s.regs.armed := (congrArg (·.regs.armed) h :)

theorem SameButHeld.interval : s'.regs.interval = s.regs.interval := (congrArg (·.regs.interval) h :)

theorem SameButHeld.events : s'.events = s.events := (congrArg State.events h :)

theorem SameButHeld.unitPort : s'.unitPort = s.unitPort := (congrArg State.unitPort h :)

theorem SameButHeld.trace : s'.trace = s.trace := (congrArg State.trace h :)

theorem SameButHeld.busReply (n : Nat) : s'.busReply n = s.busReply n :=
  busReply_congr (congrArg State.busAnswers h :) (congrArg State.transfers h :)

/-! Each update of the state keeps the relation. -/

theorem SameButHeld.emit (o : Output) : SameButHeld (s.emit o) (s'.emit o) := by
  simpa [sameButHeld_iff] using h

theorem SameButHeld.finish (who : Initiator) (r : BusResult) : SameButHeld (s.finish who r) (s'.finish who r) := by
  simpa only [State.finish_eq_emit] using h.emit _

theorem SameButHeld.raiseTransport (who : Initiator) (e : ErrInfo) :
    SameButHeld (s.raiseTransport who e) (s'.raiseTransport who e) := by
  simpa only [State.raiseTransport_eq_emit] using h.emit _

theorem SameButHeld.transferred (q : BusRequest) (r : BusResult) : SameButHeld (s.transferred q r) (s'.transferred q r) := by
  simp_all [sameButHeld_iff]

theorem SameButHeld.withEvents (rest : List Event) : SameButHeld { s with events := rest } { s' with events := rest } := by
  simp_all [sameButHeld_iff]

theorem SameButHeld.withoutUnit : SameButHeld { s with unitPort := none } { s' with unitPort := none } := by
  simp_all [sameButHeld_iff]

theorem SameButHeld.setRegs {r r' : Regs} (hc : r'.ctrlState = r.ctrlState) (ha : r'.armed = r.armed)
    (hi : r'.interval = r.interval) : SameButHeld (s.setRegs r) (s'.setRegs r') := by
  simp_all [sameButHeld_iff]

theorem SameButHeld.requested : SameButHeld (s.setRegs s.regs.requested) (s'.setRegs s'.regs.requested) :=
  h.setRegs (by simp [h.ctrlState]) h.armed h.interval

theorem SameButHeld.acquired : SameButHeld (s.setRegs s.regs.acquired) (s'.setRegs s'.regs.acquired) :=
  h.setRegs (by simp [h.ctrlState]) h.armed h.interval

theorem SameButHeld.stopIfArmed : SameButHeld s.stopIfArmed s'.stopIfArmed := by
  unfold State.stopIfArmed
  rw [h.armed]
  split
  · exact h.emit _
  · exact h

theorem SameButHeld.deliverBlock (b : List Byte) : SameButHeld (s.deliverBlock b) (s'.deliverBlock b) := by
  unfold State.deliverBlock
  rw [h.params]
  split
  · exact h.emit _
  · exact h

end

/-- Two outcomes that no later step can tell apart: next states that differ at most in the held registers, or the same stop. -/
inductive RunsAlike : Host.Outcome State Fault Refusal → Host.Outcome State Fault Refusal → Prop where
  | next {t t' : State} (h : SameButHeld t t') : RunsAlike (.next t) (.next t')
  | fault (f : Fault) : RunsAlike (.fault f) (.fault f)
  | refused (r : Refusal) : RunsAlike (.refused r) (.refused r)

theorem SameButHeld.withTransfer {s s' : State} (h : SameButHeld s s') (who : Initiator) (q : BusRequest)
    {go : List Byte → State → State} (hgo : ∀ b u u', SameButHeld u u' → SameButHeld (go b u) (go b u')) :
    RunsAlike (withTransfer who q s go) (withTransfer who q s' go) := by
  have hreply := h.busReply (readCount q)
  obtain ⟨b, hb, hw⟩ | ⟨e, he, hw⟩ | ⟨hn, hw⟩ := withTransfer_cases who q s go
  · rw [hw, withTransfer_ok (hreply.trans hb)]
    exact .next (hgo b _ _ (h.transferred _ _))
  · rw [hw, withTransfer_err (hreply.trans he)]
    exact .next ((h.transferred _ _).raiseTransport who e)
  · rw [hw, withTransfer_hang (hreply.trans hn)]
    exact .fault _

/-- No instruction reads the held gain or the last mode. -/
theorem SameButHeld.exec {s s' : State} (h : SameButHeld s s') (i : Instr) : RunsAlike (exec i s) (exec i s') := by
  cases i with
  | req =>
    rw [exec_req, exec_req, h.params]
    exact h.withTransfer _ _ fun _ _ _ hu => hu.requested.finish _ _
  | setgain g =>
    rw [exec_setgain, exec_setgain, h.params]
    exact h.withTransfer _ _ fun _ _ _ hu => (hu.setRegs (by exact hu.ctrlState) (by exact hu.armed) (by exact hu.interval)).finish _ _
  | start =>
    rw [exec_start, exec_start, h.interval]
    exact .next (((h.setRegs (by rfl) (by rfl) (by exact h.interval)).emit _).finish _ _)
  | stop =>
    rw [exec_stop, exec_stop]
    exact .next ((h.stopIfArmed.setRegs (by rfl) (by rfl) (by exact h.interval)).finish _ _)
  | setivl v =>
    have hstored : SameButHeld (s.stopIfArmed.setRegs { s.regs with interval := v })
        (s'.stopIfArmed.setRegs { s'.regs with interval := v }) := h.stopIfArmed.setRegs h.ctrlState h.armed rfl
    cases ha : s.regs.armed with
    | true =>
      rw [exec_setivl_armed ha, exec_setivl_armed (h.armed.trans ha)]
      exact .next ((hstored.emit _).finish _ _)
    | false =>
      rw [exec_setivl_idle ha, exec_setivl_idle (h.armed.trans ha)]
      exact .next (hstored.finish _ _)
  | getivl =>
    rw [exec_getivl, exec_getivl, h.interval]
    exact .next (h.emit _)
  | tick =>
    by_cases hc : s.regs.ctrlState = .continuous
    · rw [exec_tick_continuous hc, exec_tick_continuous (h.ctrlState.trans hc), h.params]
      exact h.withTransfer _ _ fun _ _ _ hu => hu.requested.finish _ _
    · rw [exec_tick_stopped hc, exec_tick_stopped (h.ctrlState ▸ hc)]
      exact .next ((h.emit _).finish _ _)
  | drdy =>
    rw [exec_drdy, exec_drdy, h.params]
    exact h.withTransfer _ _ fun b _ _ hu => (hu.acquired.deliverBlock b).finish _ _
  | wrreg reg v =>
    rw [exec_wrreg, exec_wrreg, h.params]
    exact h.withTransfer _ _ fun _ _ _ hu => hu.finish _ _
  | rdbyte reg =>
    rw [exec_rdbyte, exec_rdbyte, h.params]
    exact h.withTransfer _ _ fun _ _ _ hu => hu.finish _ _
  | rdblk reg n =>
    by_cases hn : 1 ≤ n ∧ n ≤ 255
    · rw [exec_rdblk hn, exec_rdblk hn, h.params]
      exact h.withTransfer _ _ fun _ _ _ hu => hu.finish _ _
    · rw [exec_rdblk_refused hn, exec_rdblk_refused hn]
      exact .refused _

theorem SameButHeld.runCode {s s' : State} (h : SameButHeld s s') (c : Code) : RunsAlike (runCode c s) (runCode c s') := by
  cases hd : decode s.params c with
  | ok i =>
    rw [runCode_ok hd, runCode_ok (h.params ▸ hd)]
    exact h.exec i
  | error why =>
    cases c with
    | event e =>
      rw [runCode_illegal hd, runCode_illegal (h.params ▸ hd)]
      exact .next (h.emit _)
    | bus q =>
      rw [runCode_unknown hd, runCode_unknown (h.params ▸ hd)]
      exact .refused _

theorem SameButHeld.step {s s' : State} (h : SameButHeld s s') : RunsAlike (step s) (step s') := by
  cases hp : s.unitPort with
  | some q =>
    rw [step_unit hp, step_unit (h.unitPort.trans hp)]
    exact h.withoutUnit.runCode _
  | none =>
    cases he : s.events with
    | nil =>
      rw [step_wait hp he, step_wait (h.unitPort.trans hp) (h.events.trans he)]
      exact .next h
    | cons e rest =>
      rw [step_event hp he, step_event (h.unitPort.trans hp) (h.events.trans he)]
      exact (h.withEvents rest).runCode _

theorem SameButHeld.run (n : Nat) {s s' : State} (h : SameButHeld s s') : RunsAlike (core.run n s) (core.run n s') := by
  induction n generalizing s s' with
  | zero => exact .next h
  | succ n ih =>
    have hstep := h.step
    generalize ho : Machine.step s = o at hstep
    generalize ho' : Machine.step s' = o' at hstep
    cases hstep with
    | next hu =>
      rw [run_succ_of_next ho, run_succ_of_next ho']
      exact ih hu
    | fault f =>
      rw [run_succ_of_fault ho, run_succ_of_fault ho']
      exact .fault f
    | refused r =>
      rw [run_succ_of_refused ho, run_succ_of_refused ho']
      exact .refused r

theorem RunsAlike.exists_next {t : State} {o : Host.Outcome State Fault Refusal} (h : RunsAlike (.next t) o) :
    ∃ t', o = .next t' ∧ SameButHeld t t' := by
  cases h with
  | next ht => exact ⟨_, rfl, ht⟩

theorem RunsAlike.eq_fault {f : Fault} {o : Host.Outcome State Fault Refusal} (h : RunsAlike (.fault f) o) : o = .fault f := by
  cases h
  rfl

theorem RunsAlike.eq_refused {r : Refusal} {o : Host.Outcome State Fault Refusal} (h : RunsAlike (.refused r) o) :
    o = .refused r := by
  cases h
  rfl

/-- Settles O30: every step keeps the relation (`SameButHeld.step`), so runs end alike, which each of the three outcomes reads off. -/
theorem heldGainAndModeAreInert : Obligations.HeldGainAndModeAreInert := by
  unfold Obligations.HeldGainAndModeAreInert
  intro n s s' h
  have hrun := h.run n
  refine ⟨fun t hnext => ?_, fun f hfault => ?_, fun r hrefused => ?_⟩
  · rw [hnext] at hrun
    obtain ⟨t', hnext', ht⟩ := hrun.exists_next
    exact ⟨t', hnext', ht, ht.trace⟩
  · rw [hfault] at hrun
    exact hrun.eq_fault
  · rw [hrefused] at hrun
    exact hrun.eq_refused

end Sys2Proof.Machine
end

section
/-! PROOFS of 60_exceptions: which instructions make a transfer, and from that what a hung transfer, a failed one and an illegal word do. -/

namespace Sys2Proof

/-- Whom the step of an instruction reports to (00_scope R15 "Initiator"). -/
def Instr.initiator : Instr → Machine.Initiator
  | .tick => .event .tick
  | .drdy => .event .drdy
  | .wrreg _ _ => .caller
  | .rdbyte _ => .caller
  | .rdblk _ _ => .caller
  | .req => .host
  | .setgain _ => .host
  | .start => .host
  | .stop => .host
  | .setivl _ => .host
  | .getivl => .host

/-- How many bytes the transfer of an instruction reads; 0 where it makes none or writes. -/
def Instr.readLength : Instr → Nat
  | .drdy => 6
  | .rdbyte _ => 1
  | .rdblk _ n => n
  | .req => 0
  | .setgain _ => 0
  | .start => 0
  | .stop => 0
  | .setivl _ => 0
  | .getivl => 0
  | .tick => 0
  | .wrreg _ _ => 0

end Sys2Proof

namespace Sys2Proof.Machine

/-! ### The instructions that make a transfer (40_register_protocol R127) -/

/-- An instruction that makes a transfer is that one transfer, with what follows it. -/
theorem exec_eq_withTransfer {i : Instr} {s : State} (h : performsTransfer i s) :
    ∃ q go, readCount q = i.readLength ∧ exec i s = withTransfer i.initiator q s go := by
  cases i with
  | req => exact ⟨_, _, rfl, exec_req s⟩
  | setgain g => exact ⟨_, _, rfl, exec_setgain g s⟩
  | tick => exact ⟨_, _, rfl, exec_tick_continuous h⟩
  | drdy => exact ⟨_, _, rfl, exec_drdy s⟩
  | wrreg reg v => exact ⟨_, _, rfl, exec_wrreg reg v s⟩
  | rdbyte reg => exact ⟨_, _, rfl, exec_rdbyte reg s⟩
  | rdblk reg n => exact ⟨_, _, rfl, exec_rdblk h reg s⟩
  | start | stop | setivl | getivl => cases h

/-- An instruction that makes no transfer does not fault. -/
theorem exec_ne_fault {i : Instr} {s : State} (h : ¬ performsTransfer i s) (f : Fault) : exec i s ≠ .fault f := by
  cases i with
  | start | stop | setivl | getivl => exact nofun
  | tick => rw [exec_tick_stopped h]; exact nofun
  | rdblk reg n => rw [exec_rdblk_refused h]; exact nofun
  | req | setgain | drdy | wrreg | rdbyte => exact absurd trivial h

/-! ### A transfer that never completes (60_exceptions R260) -/

theorem withTransfer_eq_fault {who : Initiator} {q : BusRequest} {s : State} {go : List Byte → State → State} {f : Fault}
    (h : withTransfer who q s go = .fault f) : f = .busHang ∧ s.Hung := by
  obtain ⟨b, -, hw⟩ | ⟨e, -, hw⟩ | ⟨hnone, hw⟩ := withTransfer_cases who q s go <;> rw [hw] at h <;> cases h
  exact ⟨rfl, busReply_eq_none.1 hnone⟩

/-- Settles O32: an instruction that makes a transfer is one (`exec_eq_withTransfer`), and a transfer hangs exactly where it has no
answer. -/
theorem hungTransferSticksStep : Obligations.HungTransferSticksStep := by
  unfold Obligations.HungTransferSticksStep
  refine ⟨fun i s hhung hp => ?_, fun i s f h => ?_, fun s f n h => run_succ_of_fault h n⟩
  · obtain ⟨q, go, -, heq⟩ := exec_eq_withTransfer hp
    rw [heq]
    exact withTransfer_hang (busReply_eq_none.2 hhung)
  · by_cases hp : performsTransfer i s
    · obtain ⟨q, go, -, heq⟩ := exec_eq_withTransfer hp
      obtain ⟨hf, hhung⟩ := withTransfer_eq_fault (heq.symm.trans h)
      exact ⟨hf, hhung, hp⟩
    · exact absurd h (exec_ne_fault hp f)

/-! ### The step of an event, decoded or not -/

section
variable {s t : State} {e : Event} {rest : List Event}

theorem step_decoded {i : Instr} (hport : s.unitPort = none) (hev : s.events = e :: rest) (hd : decodeEvent e = .ok i) :
    step s = exec i { s with events := rest } :=
  (step_event hport hev).trans (runCode_ok hd)

theorem newOutputs_of_undecoded {why : DecodeError} (hport : s.unitPort = none) (hev : s.events = e :: rest)
    (hd : decodeEvent e = .error why) (h : step s = .next t) : newOutputs s t = [.respond .errIllegal 0#32 none] := by
  rw [(step_event hport hev).trans (runCode_illegal hd)] at h
  cases h
  exact newOutputs_eq rfl

end

/-! ### An illegal host word (60_exceptions R247) -/

/-- Of the events only an illegal host word does not decode. -/
theorem not_legal_of_decodeEvent_error {e : Event} {why : DecodeError} (h : decodeEvent e = .error why) :
    ∃ w, e = .host w ∧ ¬ LegalWord w := by
  cases e with
  | host w =>
    refine ⟨w, rfl, fun hw => ?_⟩
    obtain ⟨i, hi⟩ := (decodeHost_ok_iff w).2 hw
    cases hi.symm.trans h
  | timer | interrupt => cases h

/-- ERR_ILLEGAL is reported of an illegal host word only. -/
theorem StepEffect.not_legal_of_illegal {s : State} {r : Regs} {ev : List Event} {new : List Output} {o : Output}
    (h : StepEffect s r ev new) (ho : o ∈ new) (hstatus : o.status? = some .errIllegal) :
    ∃ w rest, s.unitPort = none ∧ s.events = .host w :: rest ∧ ¬ LegalWord w := by
  cases h with
  | wait => cases ho
  | illegal hp he hd =>
    obtain ⟨w, rfl, hw⟩ := not_legal_of_decodeEvent_error hd
    exact ⟨w, _, hp, he, hw⟩
  | event _ _ _ heff | unit _ _ heff => exact absurd hstatus (heff.status_ne_illegal o ho)

/-- Settles O8: `step_of_not_legal`, and conversely no decoded instruction reports ERR_ILLEGAL. -/
theorem illegalWordsAreOnlyAnswered : Obligations.IllegalWordsAreOnlyAnswered := by
  unfold Obligations.IllegalWordsAreOnlyAnswered
  exact ⟨fun s w rest hport hev hw => step_of_not_legal hport hev hw,
    fun s t d info h ho => (step_newOutputs h).not_legal_of_illegal ho rfl⟩

/-! ### A failed transfer (60_exceptions R242) -/

/-- An effect with a failed transfer: its instruction made that transfer, and emitted nothing but it and its report. -/
theorem Effect.of_failure {i : Instr} {s : State} {r : Regs} {new : List Output} (h : Effect i s r new)
    (hf : new.any Output.isFailure = true) :
    performsTransfer i s ∧ ∃ q err, new = [.bus q (.err err), errorOutput i.initiator err] := by
  cases h with
  | reqErr | gainErr | drdyErr | wrregErr | rdbyteErr => exact ⟨trivial, _, _, rfl⟩
  | tickErr hc => exact ⟨hc, _, _, rfl⟩
  | rdblkErr hn => exact ⟨hn, _, _, rfl⟩
  | reqOk | gainOk | start | stopArmed | stopIdle | setivlArmed | setivlIdle | getivl | tickOk | tickStopped | drdyValid
  | drdyInvalid | wrregOk | rdbyteOk | rdblkOk => simp [Output.isFailure] at hf

/-- ERR_TRANSPORT is reported of a failed transfer only. -/
theorem Effect.failure_of_errTransport {i : Instr} {s : State} {r : Regs} {new : List Output} {o : Output}
    (h : Effect i s r new) (ho : o ∈ new) (hstatus : o.status? = some .errTransport) : new.any Output.isFailure = true := by
  cases h with
  | reqErr | gainErr | tickErr | drdyErr | wrregErr | rdbyteErr | rdblkErr => rfl
  | reqOk | gainOk | start | stopArmed | stopIdle | setivlArmed | setivlIdle | getivl | tickOk | tickStopped | drdyValid
  | drdyInvalid | wrregOk | rdbyteOk | rdblkOk =>
    simp only [List.mem_cons, List.not_mem_nil, or_false] at ho
    rcases ho with rfl | rfl | rfl <;> cases hstatus

/-- Where the bus answers its transfer with an error, the transfer of an instruction is one that failed. -/
theorem exec_failure_of_err {i : Instr} {s t : State} {err : ErrInfo} (hp : performsTransfer i s)
    (hreply : s.busReply i.readLength = some (.err err)) (h : exec i s = .next t) :
    (newOutputs s t).any Output.isFailure = true := by
  obtain ⟨q, go, hq, heq⟩ := exec_eq_withTransfer hp
  rw [heq, withTransfer_err_eq (hq ▸ hreply)] at h
  cases h
  rw [newOutputs_eq rfl]
  rfl

/-- Whom the step of an event reports to (30_encoding R98). -/
def eventInitiator : Event → Initiator
  | .host _ => .host
  | .timer => .event .tick
  | .interrupt => .event .drdy

theorem initiator_of_decodeEvent {e : Event} {i : Instr} (hd : decodeEvent e = .ok i) : i.initiator = eventInitiator e := by
  cases e with
  | host w => obtain rfl | ⟨g, rfl⟩ | rfl | rfl | ⟨v, rfl⟩ | rfl := decodeHost_command hd <;> rfl
  | timer | interrupt => cases hd; rfl

/-- The report of an event's error is a status ERR_TRANSPORT. -/
theorem errorOutput_status (e : Event) (err : ErrInfo) : (errorOutput (eventInitiator e) err).status? = some .errTransport := by
  cases e <;> rfl

/-- The events that make a transfer: REQ, SETGAIN, a TICK in CONTINUOUS and DRDY. -/
theorem event_of_performsTransfer {e : Event} {i : Instr} {s : State} (hd : decodeEvent e = .ok i) (hp : performsTransfer i s) :
    decodeEvent e = .ok .req ∨ (∃ g, decodeEvent e = .ok (.setgain g)) ∨ (e = .timer ∧ s.regs.ctrlState = .continuous) ∨
      e = .interrupt := by
  cases e with
  | host w =>
    obtain rfl | ⟨g, rfl⟩ | rfl | rfl | ⟨v, rfl⟩ | rfl := decodeHost_command hd
    · exact .inl hd
    · exact .inr (.inl ⟨g, hd⟩)
    all_goals cases hp
  | timer => cases hd; exact .inr (.inr (.inl ⟨rfl, hp⟩))
  | interrupt => exact .inr (.inr (.inr rfl))

section
variable {s t : State} {e : Event} {rest : List Event} (hport : s.unitPort = none) (hev : s.events = e :: rest)
  (h : step s = .next t)
include hport hev h

theorem step_failure_of_errTransport (herr : ∃ o ∈ newOutputs s t, o.status? = some .errTransport) :
    (newOutputs s t).any Output.isFailure = true := by
  obtain ⟨o, ho, hstatus⟩ := herr
  cases hd : decodeEvent e with
  | ok i =>
    rw [step_decoded hport hev hd] at h
    exact (exec_newOutputs h).failure_of_errTransport ho hstatus
  | error why =>
    rw [newOutputs_of_undecoded hport hev hd h, List.mem_singleton] at ho
    subst ho
    cases hstatus

/-- A failed transfer in the step of an event: what the step emits, and which events can. -/
theorem step_of_failure (hf : (newOutputs s t).any Output.isFailure = true) :
    (∃ q err, newOutputs s t = [.bus q (.err err), errorOutput (eventInitiator e) err]) ∧
    ∃ i, decodeEvent e = .ok i ∧ performsTransfer i s := by
  cases hd : decodeEvent e with
  | ok i =>
    rw [step_decoded hport hev hd] at h
    obtain ⟨hp, q, err, hnew⟩ := (exec_newOutputs h).of_failure hf
    exact ⟨⟨q, err, initiator_of_decodeEvent hd ▸ hnew⟩, i, rfl, hp⟩
  | error why =>
    rw [newOutputs_of_undecoded hport hev hd h] at hf
    cases hf

theorem step_failure_of_err {i : Instr} {err : ErrInfo} (hd : decodeEvent e = .ok i) (hp : performsTransfer i s)
    (hreply : s.busReply i.readLength = some (.err err)) : (newOutputs s t).any Output.isFailure = true := by
  rw [step_decoded hport hev hd] at h
  exact exec_failure_of_err (s := { s with events := rest }) hp hreply h

end

/-- Settles O26: an effect with a failed transfer is that transfer and its report (`Effect.of_failure`), no other effect reports
ERR_TRANSPORT, and an instruction whose transfer the bus answers with an error has such an effect. -/
theorem transportErrorOnlyFromFailedTransfer : Obligations.TransportErrorOnlyFromFailedTransfer := by
  unfold Obligations.TransportErrorOnlyFromFailedTransfer
  intro s t e rest hport hev h
  refine ⟨⟨step_failure_of_errTransport hport hev h, fun hf => ?_⟩, fun hf => ?_, ?_, ?_⟩
  · obtain ⟨⟨q, err, hnew⟩, -⟩ := step_of_failure hport hev h hf
    exact ⟨errorOutput (eventInitiator e) err, by simp [hnew], errorOutput_status e err⟩
  · obtain ⟨⟨q, err, hnew⟩, i, hd, hp⟩ := step_of_failure hport hev h hf
    exact ⟨⟨q, err, _, hnew, by cases e <;> rfl⟩, busFailureKeepsRecord s t h hf, event_of_performsTransfer hd hp⟩
  · rintro (hd | ⟨g, hd⟩ | ⟨rfl, hc⟩) ⟨err, hreply⟩
    · exact step_failure_of_err hport hev h hd trivial hreply
    · exact step_failure_of_err hport hev h hd trivial hreply
    · exact step_failure_of_err hport hev h (i := .tick) rfl hc hreply
  · rintro rfl ⟨err, hreply⟩
    exact step_failure_of_err hport hev h (i := .drdy) rfl trivial hreply

end Sys2Proof.Machine
end

section
/-! PROOFS of 10_state and 43_sampling_controller that hold of one step from any state: the invariants and parameters it keeps, the
instruction it runs, its one report, and that a later event has no part in it. -/

namespace Sys2Proof.Machine

/-! ### What every step keeps (10_state R22, R25, R34; 00_scope R9) -/

/-- Settles O2: both invariants hold of `State.resetWith p` by its fields. -/
theorem resetMeetsInvariants : Obligations.ResetMeetsInvariants := by
  unfold Obligations.ResetMeetsInvariants
  exact fun p => ⟨resetWith_regInv p, resetWith_traceInv p⟩

/-- Settles O3: each effect of a step moves `armed` and CONTINUOUS together and stores no mode but SingleShot. -/
theorem stepKeepsRegInv : Obligations.StepKeepsRegInv := by
  unfold Obligations.StepKeepsRegInv
  exact fun s t => step_keeps_regInv

/-- Settles O4: with nothing on the unit's input a step runs an event's instruction, whose effects emit only what the block may. -/
theorem stepKeepsTraceInv : Obligations.StepKeepsTraceInv := by
  unfold Obligations.StepKeepsTraceInv
  exact fun s t => step_keeps_traceInv

/-- Settles O52: a step keeps the parameters, and so does a run by induction on its steps. -/
theorem stepsKeepParameters : Obligations.StepsKeepParameters := by
  unfold Obligations.StepsKeepParameters
  refine ⟨fun s t => step_keeps_params, fun n s t h => ?_⟩
  exact run_induction (P := fun u => u.params = s.params) (fun u v hu hstep => (step_keeps_params hstep).trans hu) n rfl h

/-! ### What a step runs (43_sampling_controller R190) -/

/-- Settles O6: the step of an event, decoded or not, and of a transfer on the unit's own input. -/
theorem stepRunsDecodedInstruction : Obligations.StepRunsDecodedInstruction := by
  unfold Obligations.StepRunsDecodedInstruction
  exact ⟨fun s e rest i hport hev hd => step_decoded hport hev hd,
    fun s e rest why hport hev hd => (step_event hport hev).trans (runCode_illegal hd),
    fun s q i hport hd => (step_unit hport).trans (runCode_ok hd), rfl, rfl⟩

/-! ### One report, last (10_state R29, R30; 30_encoding R98) -/

/-- A status to the initiator of an event. -/
def eventReport (e : Event) (status : Status) (info : Option ErrInfo) (data : Word) : Output :=
  match e with
  | .host _ => .respond status data info
  | .timer => .eventStatus .tick status info
  | .interrupt => .eventStatus .drdy status info

/-- What a step may emit before its report: no status, at most one transfer and at most one notification. -/
def IsStepBody (body : List Output) : Prop :=
  (∀ o ∈ body, o.status? = none) ∧ (transfersOf body).length ≤ 1 ∧ (body.filter Output.isNotify).length ≤ 1

theorem isStepBody_nil : IsStepBody [] := by simp [IsStepBody]

theorem isStepBody_bus (q : BusRequest) (r : BusResult) : IsStepBody [.bus q r] := by
  simp [IsStepBody, Output.status?, Output.transfer?, Output.isNotify]

theorem isStepBody_bus_notify (q : BusRequest) (r : BusResult) (m : Notification) : IsStepBody [.bus q r, .notify m] := by
  simp [IsStepBody, Output.status?, Output.transfer?, Output.isNotify, List.filter_cons]

theorem isStepBody_timerStart (t : Interval) : IsStepBody [.timerStart t] := by
  simp [IsStepBody, Output.status?, Output.transfer?, Output.isNotify]

theorem isStepBody_timerStop : IsStepBody [.timerStop] := by
  simp [IsStepBody, Output.status?, Output.transfer?, Output.isNotify]

theorem isStepBody_restart (t : Interval) : IsStepBody [.timerStop, .timerStart t] := by
  simp [IsStepBody, Output.status?, Output.transfer?, Output.isNotify]

/-- An instruction of the event stream reports once, last, to the event's initiator. -/
theorem Effect.ends_with_report {e : Event} {i : Instr} {s : State} {r : Regs} {new : List Output} (h : Effect i s r new)
    (hd : decodeEvent e = .ok i) : ∃ body status info data, new = body ++ [eventReport e status info data] ∧ IsStepBody body := by
  have hwho := initiator_of_decodeEvent hd
  cases h with
  | reqOk | reqErr | gainOk | gainErr =>
    cases e <;> cases hwho
    exact ⟨[_], _, _, _, rfl, isStepBody_bus _ _⟩
  | tickOk | tickErr | drdyInvalid | drdyErr =>
    cases e <;> cases hwho
    exact ⟨[_], _, _, 0#32, rfl, isStepBody_bus _ _⟩
  | drdyValid =>
    cases e <;> cases hwho
    exact ⟨[_, _], _, _, 0#32, rfl, isStepBody_bus_notify _ _ _⟩
  | start =>
    cases e <;> cases hwho
    exact ⟨[_], _, _, _, rfl, isStepBody_timerStart _⟩
  | stopArmed =>
    cases e <;> cases hwho
    exact ⟨[_], _, _, _, rfl, isStepBody_timerStop⟩
  | setivlArmed =>
    cases e <;> cases hwho
    exact ⟨[_, _], _, _, _, rfl, isStepBody_restart _⟩
  | stopIdle | setivlIdle | getivl =>
    cases e <;> cases hwho
    exact ⟨[], _, _, _, rfl, isStepBody_nil⟩
  | tickStopped =>
    cases e <;> cases hwho
    exact ⟨[_], _, _, 0#32, rfl, isStepBody_timerStop⟩
  | wrregOk | wrregErr | rdbyteOk | rdbyteErr | rdblkOk | rdblkErr => cases isEvent_of_decodeEvent hd

/-- The step of an event takes that event off the stream and reports once, last. -/
theorem StepEffect.ends_with_report {s : State} {r : Regs} {ev rest : List Event} {new : List Output} {e : Event}
    (h : StepEffect s r ev new) (hport : s.unitPort = none) (hev : s.events = e :: rest) :
    ev = rest ∧ ∃ body status info data, new = body ++ [eventReport e status info data] ∧ IsStepBody body := by
  cases h with
  | wait _ he => rw [hev] at he; cases he
  | illegal _ he hd =>
    obtain ⟨rfl, rfl⟩ := List.cons.inj (hev.symm.trans he)
    obtain ⟨w, rfl, -⟩ := not_legal_of_decodeEvent_error hd
    exact ⟨rfl, [], _, _, _, rfl, isStepBody_nil⟩
  | event _ he hd heff =>
    obtain ⟨rfl, rfl⟩ := List.cons.inj (hev.symm.trans he)
    exact ⟨rfl, heff.ends_with_report hd⟩
  | unit hp => rw [hport] at hp; cases hp

/-- Settles O27: each effect of an event is a body without a status and the event's report. -/
theorem stepReportsOneStatus : Obligations.StepReportsOneStatus := by
  unfold Obligations.StepReportsOneStatus
  intro s t e rest hport hev h
  obtain ⟨-, hunit, new, htrace, heff⟩ := step_effect h
  obtain ⟨hrest, body, status, info, data, rfl, hbody⟩ := heff.ends_with_report hport hev
  refine ⟨hrest, hunit, body, status, info, data, ?_, hbody⟩
  rw [htrace, ← List.append_assoc]
  cases e <;> rfl

/-! ### A later event has no part in the step (10_state R30, 70_reset_and_hazards R278) -/

/-- The same outcome, with an event put at the end of the stream of a next state. -/
def deliverNext (e : Event) : Host.Outcome State Fault Refusal → Host.Outcome State Fault Refusal
  | .next t => .next (t.deliver e)
  | .fault f => .fault f
  | .refused r => .refused r

theorem State.emit_deliver (o : Output) (e : Event) (s : State) : (s.deliver e).emit o = (s.emit o).deliver e := rfl

theorem State.raiseTransport_deliver (who : Initiator) (err : ErrInfo) (e : Event) (s : State) :
    (s.deliver e).raiseTransport who err = (s.raiseTransport who err).deliver e := by
  cases who <;> rfl

theorem State.stopIfArmed_deliver (e : Event) (s : State) : (s.deliver e).stopIfArmed = s.stopIfArmed.deliver e := by
  cases ha : s.regs.armed <;> simp [State.stopIfArmed, ha, State.emit_deliver]

theorem State.deliverBlock_deliver (b : List Byte) (e : Event) (s : State) :
    (s.deliver e).deliverBlock b = (s.deliverBlock b).deliver e := by
  cases hv : validate (decodeBlock b) <;> simp [State.deliverBlock, hv, State.notify, State.emit_deliver]

theorem withTransfer_deliver (who : Initiator) (q : BusRequest) (s : State) (e : Event) {go : List Byte → State → State}
    (hgo : ∀ b u, go b (u.deliver e) = (go b u).deliver e) :
    withTransfer who q (s.deliver e) go = deliverNext e (withTransfer who q s go) := by
  have hreply := busReply_deliver (readCount q) e s
  obtain ⟨b, hb, hw⟩ | ⟨err, he, hw⟩ | ⟨hn, hw⟩ := withTransfer_cases who q s go
  · rw [hw, withTransfer_ok (hreply.trans hb)]
    exact congrArg _ (hgo b (s.transferred q (.ok b)))
  · rw [hw, withTransfer_err (hreply.trans he)]
    exact congrArg _ (State.raiseTransport_deliver who err e (s.transferred q (.err err)))
  · rw [hw, withTransfer_hang (hreply.trans hn)]
    rfl

/-- No instruction looks at the event stream. -/
theorem exec_deliver (i : Instr) (e : Event) (s : State) : exec i (s.deliver e) = deliverNext e (exec i s) := by
  cases i with
  | req =>
    rw [exec_req, exec_req]
    exact withTransfer_deliver _ _ _ _ fun _ _ => rfl
  | setgain g =>
    rw [exec_setgain, exec_setgain]
    exact withTransfer_deliver _ _ _ _ fun _ _ => rfl
  | start => rfl
  | stop =>
    rw [exec_stop, exec_stop, State.stopIfArmed_deliver]
    rfl
  | setivl v =>
    cases ha : s.regs.armed with
    | true =>
      rw [exec_setivl_armed ha, exec_setivl_armed (s := s.deliver e) ha, State.stopIfArmed_deliver]
      rfl
    | false =>
      rw [exec_setivl_idle ha, exec_setivl_idle (s := s.deliver e) ha, State.stopIfArmed_deliver]
      rfl
  | getivl => rfl
  | tick =>
    by_cases hc : s.regs.ctrlState = .continuous
    · rw [exec_tick_continuous hc, exec_tick_continuous (s := s.deliver e) hc]
      exact withTransfer_deliver _ _ _ _ fun _ _ => rfl
    · rw [exec_tick_stopped hc, exec_tick_stopped (s := s.deliver e) hc]
      rfl
  | drdy =>
    rw [exec_drdy, exec_drdy]
    refine withTransfer_deliver _ _ _ _ fun b u => ?_
    exact congrArg (State.finish _ _) (State.deliverBlock_deliver b e (u.setRegs u.regs.acquired))
  | wrreg reg v => exact withTransfer_deliver _ _ _ _ fun _ _ => rfl
  | rdbyte reg => exact withTransfer_deliver _ _ _ _ fun _ _ => rfl
  | rdblk reg n =>
    by_cases hn : 1 ≤ n ∧ n ≤ 255
    · rw [exec_rdblk hn, exec_rdblk hn]
      exact withTransfer_deliver _ _ _ _ fun _ _ => rfl
    · rw [exec_rdblk_refused hn, exec_rdblk_refused hn]
      rfl

theorem runCode_deliver (c : Code) (e : Event) (s : State) : runCode c (s.deliver e) = deliverNext e (runCode c s) := by
  cases hd : decode s.params c with
  | ok i =>
    rw [runCode_ok hd, runCode_ok (s := s.deliver e) hd]
    exact exec_deliver i e s
  | error why =>
    cases c with
    | event w =>
      rw [runCode_illegal hd, runCode_illegal (s := s.deliver e) hd]
      rfl
    | bus q =>
      rw [runCode_unknown hd, runCode_unknown (s := s.deliver e) hd]
      rfl

/-- A step with something to do takes it from the front, so an event at the end waits. -/
theorem step_deliver {s : State} (hwork : s.unitPort ≠ none ∨ s.events ≠ []) (e : Event) :
    step (s.deliver e) = deliverNext e (step s) := by
  cases hport : s.unitPort with
  | some q =>
    rw [step_unit hport, step_unit (s := s.deliver e) hport]
    exact runCode_deliver _ e { s with unitPort := none }
  | none =>
    obtain ⟨w, rest, hev⟩ := List.exists_cons_of_ne_nil (hwork.resolve_left (absurd hport))
    have hev' : (s.deliver e).events = w :: (rest ++ [e]) := by simp [hev]
    rw [step_event hport hev, step_event (s := s.deliver e) hport hev']
    exact runCode_deliver _ e { s with events := rest }

/-- Settles O29: the step of the state with the event added is that of the state, with the event added (`step_deliver`). -/
theorem stepIgnoresLaterEvents : Obligations.StepIgnoresLaterEvents := by
  unfold Obligations.StepIgnoresLaterEvents
  intro s t e hwork h
  rw [step_deliver hwork, h]
  rfl

/-! ### Completion (43_sampling_controller R216) -/

/-- Settles O34: a well-formed instruction is not refused and faults only where its transfer hangs; what it adds is its effect. -/
theorem instructionsCompleteUnlessHung : Obligations.InstructionsCompleteUnlessHung := by
  unfold Obligations.InstructionsCompleteUnlessHung
  intro i s hwf hhung
  cases h : exec i s with
  | next t =>
    obtain ⟨-, hev, hport, new, htrace, -⟩ := exec_effect h
    exact ⟨t, new, rfl, htrace, hev, hport⟩
  | fault f =>
    obtain ⟨-, hfault, -⟩ := hungTransferSticksStep
    obtain ⟨-, hung, -⟩ := hfault i s f h
    exact absurd hung hhung
  | refused r => exact absurd h (exec_ne_refused hwf s r)

/-! ### Notifications (41_sample_decoder R146, 43_sampling_controller R212) -/

/-- What a DRDY adds where the block it reads is valid. -/
theorem Effect.drdy_valid_outputs {s : State} {r : Regs} {new : List Output} {b : List Byte} (h : Effect .drdy s r new)
    (hb : s.busReply 6 = some (.ok b)) (hv : validate (decodeBlock b) = true) :
    new = [.bus (.writeRead [regAddr s.params .dataXMsb] 6) (.ok b), .notify (sampleOf s.params.atanx (decodeBlock b)).encode,
      .eventStatus .drdy .ok none] := by
  cases h with
  | drdyValid hb' _ => cases hb.symm.trans hb'; rfl
  | drdyInvalid hb' hv' => cases hb.symm.trans hb'; cases hv.symm.trans hv'
  | drdyErr he => cases hb.symm.trans he

/-- Settles O35: only a DRDY with a valid block notifies (`Effect.notify_mem`), and then `Effect.drdy_valid_outputs` lists its outputs. -/
theorem oneNotificationPerValidBlock : Obligations.OneNotificationPerValidBlock := by
  unfold Obligations.OneNotificationPerValidBlock
  intro i s t h
  have heff := exec_newOutputs h
  refine ⟨⟨?_, ?_⟩, fun m hm => ?_⟩
  · rintro ⟨m, hm⟩
    obtain ⟨rfl, b, hb, hv, -⟩ := heff.notify_mem hm
    exact ⟨rfl, b, hb, hv⟩
  · rintro ⟨rfl, b, hb, hv⟩
    rw [heff.drdy_valid_outputs hb hv]
    exact ⟨_, List.mem_cons_of_mem _ List.mem_cons_self⟩
  · obtain ⟨rfl, b, hb, hv, rfl⟩ := heff.notify_mem hm
    exact ⟨b, hb, rfl, by rw [heff.drdy_valid_outputs hb hv]; simp⟩

end Sys2Proof.Machine
end

section
/-! PROOFS of 30_encoding: the decoder and the encoder against each other, the pair STARTIVL, and the register maps the parameters allow. -/

namespace Sys2Proof.Machine

/-! ### Event words (30_encoding R81 to R88, R101) -/

theorem event_host_eq {v w : Word} (h : v.toNat = w.toNat) : Code.event (.host v) = .event (.host w) := by
  rw [BitVec.eq_of_toNat_eq h]

/-- A word that decodes is the encoding of what it decodes to: its reserved bits are all 0. -/
theorem encode_of_decodeHost {w : Word} {i : Instr} (h : decodeHost w = .ok i) (p : Params) : encode p i = .event (.host w) := by
  rw [decodeHost_eq] at h
  split_ifs at h <;> cases h
  all_goals
    refine event_host_eq ?_
    simp only [setgainWord_toNat, setivlWord_toNat, gainField_toNat, ivlField_toNat, BitVec.toNat_ofNat]
    omega

theorem decodeHost_setgainWord (g : GainIndex) : decodeHost (0x00000002#32 ||| (g.setWidth 32 <<< 4)) = .ok (.setgain g) := by
  revert g
  decide

theorem decodeHost_setivlWord (t : Interval) : decodeHost (0x00000005#32 ||| (t.setWidth 32 <<< 8)) = .ok (.setivl t) := by
  have hw := setivlWord_toNat t
  generalize 0x00000005#32 ||| (t.setWidth 32 <<< 8) = w at hw
  have ht : ivlField w = t := BitVec.eq_of_toNat_eq (by rw [ivlField_toNat]; omega)
  rw [decodeHost_eq, ht, if_neg (by omega), if_neg (by omega), if_neg (by omega), if_neg (by omega), if_pos (by omega),
    if_pos (by omega)]

theorem decode_encode_of_isEvent (p : Params) {i : Instr} (hi : i.isEvent = true) : decode p (encode p i) = .ok i := by
  cases i with
  | setgain g => exact decodeHost_setgainWord g
  | setivl t => exact decodeHost_setivlWord t
  | req | start | stop | getivl | tick | drdy => rfl
  | wrreg | rdbyte | rdblk => cases hi

theorem decodeEvent_of_encode {p : Params} {i : Instr} {e : Event} (h : encode p i = .event e) : decodeEvent e = .ok i := by
  have hi : i.isEvent = true := by
    cases i with
    | req | setgain | start | stop | setivl | getivl | tick | drdy => rfl
    | wrreg | rdbyte | rdblk => cases h
  have hd := decode_encode_of_isEvent p hi
  rwa [h] at hd

/-- Decoder and encoder agree on the words of the host port. -/
theorem decodeHost_ok_iff_encode (p : Params) (w : Word) (i : Instr) :
    decodeHost w = .ok i ↔ encode p i = .event (.host w) :=
  ⟨fun h => encode_of_decodeHost h p, decodeEvent_of_encode⟩

theorem encode_setgain_iff (p : Params) (g : GainIndex) (w : Word) : encode p (.setgain g) = .event (.host w) ↔
    w &&& 0xFFFFFF8F#32 = 0x00000002#32 ∧ g.toNat = w.toNat / 16 % 8 := by
  have hg := g.isLt
  simp only [encode, Code.event.injEq, Event.host.injEq, ← BitVec.toNat_inj (y := w), setgainWord_toNat, setgain_mask]
  omega

theorem encode_setivl_iff (p : Params) (t : Interval) (w : Word) : encode p (.setivl t) = .event (.host w) ↔
    w &&& 0x000000FF#32 = 0x00000005#32 ∧ t.toNat = w.toNat / 256 := by
  simp only [encode, Code.event.injEq, Event.host.injEq, ← BitVec.toNat_inj (y := w), setivlWord_toNat, setivl_mask]
  omega

/-- Settles O7: a word decodes to a command exactly where it is the command's encoding (`decodeHost_ok_iff_encode`). -/
theorem hostWordsDecodeAsTheTable : Obligations.HostWordsDecodeAsTheTable := by
  unfold Obligations.HostWordsDecodeAsTheTable
  intro w
  have fixed : ∀ i v, encode .default i = .event (.host v) → (decodeHost w = .ok i ↔ w = v) := by
    intro i v hi
    rw [decodeHost_ok_iff_encode .default, hi, Code.event.injEq, Event.host.injEq, eq_comm]
  exact ⟨fixed _ _ rfl, fun g => (decodeHost_ok_iff_encode _ w _).trans (encode_setgain_iff .default g w), fixed _ _ rfl,
    fixed _ _ rfl, fun t => (decodeHost_ok_iff_encode _ w _).trans (encode_setivl_iff .default t w), fixed _ _ rfl,
    decodeHost_ok_iff w⟩

/-! ### Transfers (30_encoding R89 to R91) -/

/-- What a transfer decodes to: one of the unit's three operations, on a register with the transfer's address. -/
theorem decodeBus_cases {p : Params} {q : BusRequest} {i : Instr} (h : decodeBus p q = .ok i) :
    (∃ r v, q = .write [regAddr p r, v] ∧ i = .wrreg r v) ∨ (∃ r, q = .writeRead [regAddr p r] 1 ∧ i = .rdbyte r) ∨
    (∃ r n, q = .writeRead [regAddr p r] n ∧ i = .rdblk r n ∧ 1 ≤ n ∧ n ≤ 255) := by
  unfold decodeBus at h
  split at h
  · obtain ⟨r, rfl, rfl⟩ := withReg_ok h
    exact .inl ⟨r, _, rfl, rfl⟩
  · split_ifs at h with hone hlen
    · obtain ⟨r, rfl, rfl⟩ := withReg_ok h
      exact .inr (.inl ⟨r, by rw [hone], rfl⟩)
    · obtain ⟨r, rfl, rfl⟩ := withReg_ok h
      exact .inr (.inr ⟨r, _, rfl, rfl, hlen⟩)
  · cases h

/-- Settles O10: a host word by `encode_of_decodeHost`, an event that carries no word by itself, a transfer by `decodeBus_cases`. -/
theorem decodeThenEncode : Obligations.DecodeThenEncode := by
  unfold Obligations.DecodeThenEncode
  intro p c i h
  cases c with
  | event e =>
    refine ⟨?_, wellFormed_of_isEvent (isEvent_of_decodeEvent h)⟩
    cases e with
    | host w => exact encode_of_decodeHost h p
    | timer | interrupt => cases h; rfl
  | bus q =>
    obtain ⟨r, v, rfl, rfl⟩ | ⟨r, rfl, rfl⟩ | ⟨r, n, rfl, rfl, hn⟩ := decodeBus_cases h
    · exact ⟨rfl, rfl⟩
    · exact ⟨rfl, rfl⟩
    · exact ⟨rfl, decide_eq_true hn⟩

theorem withTransfer_congr {who : Initiator} {q : BusRequest} {s : State} {go go' : List Byte → State → State}
    (h : ∀ b, s.busReply (readCount q) = some (.ok b) → go b = go' b) : withTransfer who q s go = withTransfer who q s go' := by
  obtain ⟨b, hb, hw⟩ | ⟨e, he, hw⟩ | ⟨hn, hw⟩ := withTransfer_cases who q s go
  · rw [hw, withTransfer_ok hb, h b hb]
  · rw [hw, withTransfer_err he]
  · rw [hw, withTransfer_hang hn]

/-- RDBLK of one byte is RDBYTE: an answer to it has one byte (log 3). -/
theorem exec_rdblk_one (r : RegName) (s : State) : exec (.rdblk r 1) s = exec (.rdbyte r) s := by
  rw [exec_rdblk (by decide), exec_rdbyte]
  refine withTransfer_congr fun b hb => ?_
  obtain ⟨x, rfl⟩ := List.length_eq_one_iff.1 (busReply_ok_length hb)
  rfl

/-! The unit's operations name their register to the bus by its address only. -/

section
variable {r r' : RegName} {s : State} (h : regAddr s.params r' = regAddr s.params r)
include h

theorem exec_wrreg_congr (v : Byte) : exec (.wrreg r' v) s = exec (.wrreg r v) s := by
  rw [exec_wrreg, exec_wrreg, h]

theorem exec_rdbyte_congr : exec (.rdbyte r') s = exec (.rdbyte r) s := by
  rw [exec_rdbyte, exec_rdbyte, h]

theorem exec_rdblk_congr {n : Nat} (hn : 1 ≤ n ∧ n ≤ 255) : exec (.rdblk r' n) s = exec (.rdblk r n) s := by
  rw [exec_rdblk hn, exec_rdblk hn, h]

end

theorem decodeBus_block {n : Nat} (hn : 1 ≤ n ∧ n ≤ 255) (hone : n ≠ 1) (p : Params) (a : Byte) :
    decodeBus p (.writeRead [a] n) = withReg p a (fun r => .rdblk r n) := by
  simp only [decodeBus, if_neg hone]
  exact if_pos hn

theorem withReg_of_distinct {p : Params} (h : p.Distinct) (r : RegName) (f : RegName → Instr) :
    withReg p (regAddr p r) f = .ok (f r) := by
  rw [withReg, regOfAddr_of_distinct h]

/-- Decoding an encoding: an instruction with that encoding, which does the same. -/
theorem decode_encode_same (p : Params) {i : Instr} (hwf : i.wellFormed = true) :
    ∃ j, decode p (encode p i) = .ok j ∧ encode p j = encode p i ∧ ∀ s : State, s.params = p → exec j s = exec i s := by
  cases i with
  | req | setgain | start | stop | setivl | getivl | tick | drdy =>
    exact ⟨_, decode_encode_of_isEvent p rfl, rfl, fun _ _ => rfl⟩
  | wrreg r v =>
    obtain ⟨r', hd, haddr⟩ := withReg_regAddr p r (fun r => .wrreg r v)
    exact ⟨_, hd, by simp only [encode, haddr], fun s hs => exec_wrreg_congr (hs ▸ haddr) v⟩
  | rdbyte r =>
    obtain ⟨r', hd, haddr⟩ := withReg_regAddr p r .rdbyte
    exact ⟨_, hd, by simp only [encode, haddr], fun s hs => exec_rdbyte_congr (hs ▸ haddr)⟩
  | rdblk r n =>
    have hn : 1 ≤ n ∧ n ≤ 255 := of_decide_eq_true hwf
    by_cases hone : n = 1
    · subst hone
      obtain ⟨r', hd, haddr⟩ := withReg_regAddr p r .rdbyte
      refine ⟨_, hd, by simp only [encode, haddr], fun s hs => ?_⟩
      rw [exec_rdblk_one]
      exact exec_rdbyte_congr (hs ▸ haddr)
    · obtain ⟨r', hd, haddr⟩ := withReg_regAddr p r (fun r => .rdblk r n)
      exact ⟨_, (decodeBus_block hn hone p _).trans hd, by simp only [encode, haddr],
        fun s hs => exec_rdblk_congr (hs ▸ haddr) hn⟩

/-- With no address shared, decoding an encoding gives the instruction itself, but for RDBLK of one byte. -/
theorem decode_encode_of_distinct {p : Params} (hp : p.Distinct) {i : Instr} (hwf : i.wellFormed = true)
    (hone : ∀ r, i ≠ .rdblk r 1) : decode p (encode p i) = .ok i := by
  cases i with
  | req | setgain | start | stop | setivl | getivl | tick | drdy => exact decode_encode_of_isEvent p rfl
  | wrreg r v => exact withReg_of_distinct hp r (fun r => .wrreg r v)
  | rdbyte r => exact withReg_of_distinct hp r .rdbyte
  | rdblk r n =>
    have hn : n ≠ 1 := fun h => hone r (h ▸ rfl)
    exact (decodeBus_block (of_decide_eq_true hwf) hn p _).trans (withReg_of_distinct hp r (fun r => .rdblk r n))

/-- Settles O9: events are decoded from their own words; a transfer gives back a register with the same address, and the unit's
operations depend on the address only. -/
theorem encodeThenDecode : Obligations.EncodeThenDecode := by
  unfold Obligations.EncodeThenDecode
  exact fun p i hwf => ⟨decode_encode_same p hwf, fun hp hone => decode_encode_of_distinct hp hwf hone⟩

/-- Settles O11: the decoder, run on the eight codes. -/
theorem sampleWordsDecode : Obligations.SampleWordsDecode := by
  unfold Obligations.SampleWordsDecode
  decide

/-! ### STARTIVL (30_encoding R102) -/

/-- Two events of the stream, each run in its own step. -/
theorem run_two_events {s u t : State} {e e' : Event} {rest : List Event} {i j : Instr} (hport : s.unitPort = none)
    (hev : s.events = e :: e' :: rest) (hi : decodeEvent e = .ok i) (hj : decodeEvent e' = .ok j)
    (hu : exec i { s with events := e' :: rest } = .next u) (ht : exec j { u with events := rest } = .next t) :
    core.run 2 s = .next t := by
  obtain ⟨-, hev', hport', -⟩ := exec_effect hu
  rw [run_succ_of_next ((step_decoded hport hev hi).trans hu), run_succ_of_next ((step_decoded (hport'.trans hport) hev' hj).trans ht)]
  rfl

/-- Settles O36: one step of SETIVL and one of START, each the equation of its instruction. -/
theorem startIvlStartsAtInterval : Obligations.StartIvlStartsAtInterval := by
  unfold Obligations.StartIvlStartsAtInterval
  intro t s hport
  obtain ⟨-, hstart⟩ := startArmsTimer
  obtain ⟨-, hsetivl⟩ := setivlStoresInterval t { s with events := .host 0x00000003#32 :: s.events }
  refine ⟨_, (if s.regs.armed then [.timerStop, .timerStart t] else []) ++ [.respond .ok 0#32 none],
    run_two_events hport rfl (decodeHost_setivlWord t) (decode_encode_of_isEvent s.params (i := .start) rfl) hsetivl (hstart _),
    rfl, rfl, ?_, ?_⟩
  · simp
  · cases s.regs.armed <;> rfl

/-! ### The register maps the parameters allow (30_encoding R92, 92_eei_decisions D8) -/

theorem dataAddr_toNat (p : Params) {k : Nat} (hk : k ≤ 5) : (dataAddr p k).toNat = p.regAddr.data.val + k := by
  have := p.regAddr.data.isLt
  rw [dataAddr, BitVec.toNat_ofNat]
  omega

/-- The address after a data register's is the next one's (20_memory R59). -/
theorem dataAddr_succ (p : Params) (k : Nat) : dataAddr p k + 1 = dataAddr p (k + 1) := by
  rw [dataAddr, dataAddr, ← Nat.add_assoc, BitVec.ofNat_add _ 1]
  rfl

theorem regAddr_dataInOrder (p : Params) : DataInOrder (regAddr p) := by
  simp [DataInOrder, regAddr, dataAddr_toNat]

/-- The parameters with the addresses of a map whose data registers are in order. -/
def paramsOfAddr (addr : RegName → Byte) (h : DataInOrder addr) : Params :=
  { Params.default with
    regAddr := {
      configA := addr .configA
      configB := addr .configB
      mode := addr .mode
      data := ⟨(addr .dataXMsb).toNat, by
        obtain ⟨-, -, -, -, hlast⟩ := h
        have := (addr .dataYLsb).isLt
        omega⟩
      status := addr .status
      idA := addr .idA
      idB := addr .idB
      idC := addr .idC } }

theorem regAddr_paramsOfAddr (addr : RegName → Byte) (h : DataInOrder addr) : regAddr (paramsOfAddr addr h) = addr := by
  have hdata : ∀ (r : RegName) (k : Nat), k ≤ 5 → (addr r).toNat = (addr .dataXMsb).toNat + k →
      dataAddr (paramsOfAddr addr h) k = addr r := fun r k hk hr =>
    BitVec.eq_of_toNat_eq ((dataAddr_toNat _ hk).trans hr.symm)
  obtain ⟨hxl, hzm, hzl, hym, hyl⟩ := h
  funext r
  cases r with
  | configA | configB | mode | status | idA | idB | idC => rfl
  | dataXMsb => exact hdata _ 0 (by decide) rfl
  | dataXLsb => exact hdata _ 1 (by decide) hxl
  | dataZMsb => exact hdata _ 2 (by decide) hzm
  | dataZLsb => exact hdata _ 3 (by decide) hzl
  | dataYMsb => exact hdata _ 4 (by decide) hym
  | dataYLsb => exact hdata _ 5 (by decide) hyl

/-- Settles O53: a map in order is `regAddr` of `paramsOfAddr`, and each data register is the successor of the one before. -/
theorem registerMapsKeepDataOrder : Obligations.RegisterMapsKeepDataOrder := by
  unfold Obligations.RegisterMapsKeepDataOrder
  refine ⟨fun addr => ⟨fun h => ⟨_, regAddr_paramsOfAddr addr h⟩, ?_⟩, fun p content => ?_⟩
  · rintro ⟨p, rfl⟩
    exact regAddr_dataInOrder p
  · simp only [readFrom, regAddr, dataAddr_succ]

end Sys2Proof.Machine
end

section
/-! PROOFS of 40_register_protocol: the unit's three operations run by themselves, and the answers of the bus. -/

namespace Sys2Proof.Machine

/-! ### The three operations (40_register_protocol R121 to R123) -/

/-- What the unit returns: made of the bytes read, or the bus's error. -/
def unitOutcome (out : List Byte → BusResult) : BusResult → BusResult
  | .ok b => out b
  | .err e => .err e

/-- A transfer of the unit that completes, as an update of the state. -/
theorem unitTransfer_eq {q : BusRequest} {s : State} {out : List Byte → BusResult} {r : BusResult}
    (h : s.busReply (readCount q) = some r) :
    withTransfer .caller q s (fun b => State.finish .caller (out b)) = .next { s with
      busAnswers := s.busAnswers.tail
      transfers := s.transfers + 1
      trace := s.trace ++ [.bus q r, .unitReturn (unitOutcome out r)] } := by
  cases r with
  | ok b =>
    rw [withTransfer_ok h]
    simp [State.ext_iff, finishOutput, unitOutcome]
  | err e => exact withTransfer_err_eq h

/-- Settles O20: WRREG is one transfer of the unit, which returns nothing or the bus's error. -/
theorem wrregSendsTwoBytes : Obligations.WrregSendsTwoBytes := by
  unfold Obligations.WrregSendsTwoBytes
  refine fun reg value s => ⟨rfl, fun r h => ⟨unitOutcome (fun _ => .ok []) r, by cases r <;> rfl, ?_⟩⟩
  rw [exec_wrreg]
  exact unitTransfer_eq (q := .write _) (out := fun _ => .ok []) h

/-- Settles O21: RDBYTE is one transfer of the unit, which returns the byte read or the bus's error. -/
theorem rdbyteReadsOneByte : Obligations.RdbyteReadsOneByte := by
  unfold Obligations.RdbyteReadsOneByte
  intro reg s
  rw [exec_rdbyte]
  exact ⟨rfl, fun b h => unitTransfer_eq (q := .writeRead _ 1) (out := fun b => .ok [b.getD 0 0]) h,
    fun e h => unitTransfer_eq (q := .writeRead _ 1) (out := fun b => .ok [b.getD 0 0]) h⟩

/-- Settles O22: RDBLK of a count the rule allows is one transfer of the unit, which returns what the bus answered; another is refused. -/
theorem rdblkReadsExactlyN : Obligations.RdblkReadsExactlyN := by
  unfold Obligations.RdblkReadsExactlyN
  refine fun reg n s => ⟨rfl, fun r hlow hhigh h => ⟨?_, ?_⟩, fun hn => exec_rdblk_refused (by omega) reg s⟩
  · rintro bytes rfl
    exact busReply_ok_length h
  · have hout : unitOutcome .ok r = r := by cases r <;> rfl
    rw [exec_rdblk ⟨hlow, hhigh⟩, unitTransfer_eq (q := .writeRead _ n) (out := .ok) h, hout]

/-- Whatever a direct call of the unit answers, it leaves the registers, makes its own transfer and gives no timer command. -/
theorem Effect.of_encode_bus {i : Instr} {s : State} {r : Regs} {new : List Output} {q : BusRequest} (h : Effect i s r new)
    (hq : encode s.params i = .bus q) : r = s.regs ∧ transfersOf new = [q] ∧ new.filter Output.isTimer = [] := by
  cases h with
  | wrregOk | wrregErr | rdbyteOk | rdbyteErr | rdblkOk | rdblkErr => cases hq; exact ⟨rfl, rfl, rfl⟩
  | reqOk | reqErr | gainOk | gainErr | start | stopArmed | stopIdle | setivlArmed | setivlIdle | getivl | tickOk | tickErr
  | tickStopped | drdyValid | drdyInvalid | drdyErr => cases hq

/-- Settles O51: the effects of the instructions that are encoded as transfers. -/
theorem unitCallsKeepRegisters : Obligations.UnitCallsKeepRegisters := by
  unfold Obligations.UnitCallsKeepRegisters
  exact fun i q s t hq h => (exec_newOutputs h).of_encode_bus hq

/-! ### The answers of the bus (40_register_protocol R122, 92_eei_decisions D26) -/

theorem fitLength_of_length {n : Nat} {bytes : List Byte} (h : bytes.length = n) (wrong : ErrInfo) :
    fitLength n wrong (.ok bytes) = .ok bytes := if_pos h

theorem fitLength_of_wrong_length {n : Nat} {bytes : List Byte} (h : bytes.length ≠ n) (wrong : ErrInfo) :
    fitLength n wrong (.ok bytes) = .err wrong := if_neg h

theorem busReply_of_answer {s : State} {r : BusResult} {answers : List BusAnswer} (h : s.busAnswers = .done r :: answers) (n : Nat) :
    s.busReply n = some (fitLength n (Config.lengthError s.transfers) r) := by
  simp only [State.busReply, h]

/-- Settles O23: a scripted answer reaches the block through `fitLength`, and with no script nothing hangs. -/
theorem wrongLengthAnswerIsError : Obligations.WrongLengthAnswerIsError := by
  unfold Obligations.WrongLengthAnswerIsError
  refine fun n s answers => ⟨fun bytes h hlen => ?_, fun e h => busReply_of_answer h n, fun bytes h hlen => ?_, fun h => ?_⟩
  · rw [busReply_of_answer h, fitLength_of_length hlen]
  · exact ⟨_, by rw [busReply_of_answer h, fitLength_of_wrong_length hlen]⟩
  · have hanswer : s.busReply n ≠ none := fun hnone => by simpa [State.Hung, h] using busReply_eq_none.1 hnone
    obtain ⟨r, hr⟩ := Option.ne_none_iff_exists'.1 hanswer
    exact ⟨r, hr, fun bytes hb => busReply_ok_length (hb ▸ hr)⟩

end Sys2Proof.Machine
end

section
/-! PROOFS of 00_scope section 5: the binary64 operations against the values, each rounded once. -/

namespace Sys2Proof

open Machine

/-! ### Values by their place in the order (`F64.key`) -/

/-- The value of a place in the order of the numbers. -/
def F64.keyValue (k : Int) : ℚ := if k < 0 then -F64.magnitudeValue k.natAbs else F64.magnitudeValue k.natAbs

theorem F64.toRat_eq_keyValue {x : F64} (h : x.isFinite = true) : x.toRat = F64.keyValue x.key := by
  rw [F64.toRat_eq h, F64.key, F64.keyValue]
  cases x.sign with
  | false => simp [signed]
  | true =>
    rcases Nat.eq_zero_or_pos x.magnitude with h0 | h0
    · simp [signed, h0, F64.magnitudeValue_zero]
    · simp [signed, h0]

theorem F64.keyValue_strictMono : StrictMono F64.keyValue := by
  have mono := F64.magnitudeValue_strictMono
  intro a b hab
  unfold F64.keyValue
  split_ifs with ha hb hb
  · exact neg_lt_neg (mono (by omega))
  · have hpos : F64.magnitudeValue 0 < F64.magnitudeValue a.natAbs := mono (by omega)
    have hnonneg := F64.magnitudeValue_nonneg b.natAbs
    rw [F64.magnitudeValue_zero] at hpos
    linarith
  · omega
  · exact mono (by omega)

theorem F64.isNaN_of_isFinite {x : F64} (h : x.isFinite = true) : x.isNaN = false := by
  have hm : x.magnitude < F64.infMagnitude := of_decide_eq_true h
  exact decide_eq_false (by omega)

section
variable {x y : F64} (hx : x.isFinite = true) (hy : y.isFinite = true)
include hx hy

theorem F64.eq_iff_toRat : F64.eq x y = true ↔ x.toRat = y.toRat := by
  rw [F64.toRat_eq_keyValue hx, F64.toRat_eq_keyValue hy, F64.keyValue_strictMono.injective.eq_iff]
  simp [F64.eq, F64.isNaN_of_isFinite hx, F64.isNaN_of_isFinite hy]

theorem F64.lt_iff_toRat : F64.lt x y = true ↔ x.toRat < y.toRat := by
  rw [F64.toRat_eq_keyValue hx, F64.toRat_eq_keyValue hy, F64.keyValue_strictMono.lt_iff_lt]
  simp [F64.lt, F64.isNaN_of_isFinite hx, F64.isNaN_of_isFinite hy]

theorem F64.ge_iff_toRat : F64.ge x y = true ↔ y.toRat ≤ x.toRat := by
  rw [F64.toRat_eq_keyValue hx, F64.toRat_eq_keyValue hy, F64.keyValue_strictMono.le_iff_le]
  simp [F64.ge, F64.isNaN_of_isFinite hx, F64.isNaN_of_isFinite hy]

/-- Two finite patterns of one value other than 0 are the same pattern. -/
theorem F64.eq_of_toRat_eq (hv : x.toRat = y.toRat) (h0 : y.toRat ≠ 0) : x = y := by
  have hkey : x.key = y.key := by
    rw [F64.toRat_eq_keyValue hx, F64.toRat_eq_keyValue hy] at hv
    exact F64.keyValue_strictMono.injective hv
  have hy0 : y.magnitude ≠ 0 := by
    intro h
    rw [F64.toRat_eq hy, h, F64.magnitudeValue_zero, mul_zero] at h0
    exact h0 rfl
  have hparts : x.sign = y.sign ∧ x.magnitude = y.magnitude := by
    unfold F64.key signed at hkey
    cases hs : x.sign <;> cases hs' : y.sign <;> simp only [hs, hs', if_true, Bool.false_eq_true, if_false] at hkey
    · exact ⟨rfl, by omega⟩
    · exact absurd hkey (by omega)
    · exact absurd hkey (by omega)
    · exact ⟨rfl, by omega⟩
  rw [← F64.ofMagnitude_sign_magnitude x, ← F64.ofMagnitude_sign_magnitude y, hparts.1, hparts.2]

end

/-- A finite number and its value. -/
def F64.HasValue (x : F64) (q : ℚ) : Prop := x.isFinite = true ∧ x.toRat = q

theorem F64.hasValue_toRat {x : F64} (h : x.isFinite = true) : x.HasValue x.toRat := ⟨h, rfl⟩

section
variable {x y : F64} {a b : ℚ} (hx : x.HasValue a) (hy : y.HasValue b)
include hx hy

theorem F64.HasValue.eq : F64.eq x y = decide (a = b) := by
  obtain ⟨hfx, rfl⟩ := hx
  obtain ⟨hfy, rfl⟩ := hy
  rw [Bool.eq_iff_iff, F64.eq_iff_toRat hfx hfy, decide_eq_true_iff]

theorem F64.HasValue.lt : F64.lt x y = decide (a < b) := by
  obtain ⟨hfx, rfl⟩ := hx
  obtain ⟨hfy, rfl⟩ := hy
  rw [Bool.eq_iff_iff, F64.lt_iff_toRat hfx hfy, decide_eq_true_iff]

theorem F64.HasValue.ge : F64.ge x y = decide (b ≤ a) := by
  obtain ⟨hfx, rfl⟩ := hx
  obtain ⟨hfy, rfl⟩ := hy
  rw [Bool.eq_iff_iff, F64.ge_iff_toRat hfx hfy, decide_eq_true_iff]

end

/-! ### Unary minus and `abs` -/

theorem F64.neg_isFinite (x : F64) : x.neg.isFinite = x.isFinite := by rw [F64.isFinite, F64.isFinite, F64.neg_magnitude]

theorem F64.abs_sign (x : F64) : x.abs.sign = false := F64.ofMagnitude_sign x.magnitude_lt

theorem F64.abs_magnitude (x : F64) : x.abs.magnitude = x.magnitude := F64.ofMagnitude_magnitude x.magnitude_lt

theorem F64.abs_isFinite (x : F64) : x.abs.isFinite = x.isFinite := by rw [F64.isFinite, F64.isFinite, F64.abs_magnitude]

theorem F64.neg_toRat {x : F64} (h : x.isFinite = true) : x.neg.toRat = -x.toRat := by
  rw [F64.toRat_eq h, F64.toRat_eq (x.neg_isFinite.trans h), F64.neg_sign, F64.neg_magnitude]
  cases x.sign <;> simp

theorem F64.abs_toRat {x : F64} (h : x.isFinite = true) : x.abs.toRat = |x.toRat| := by
  have hnonneg := F64.magnitudeValue_nonneg x.magnitude
  rw [F64.toRat_eq h, F64.toRat_eq (x.abs_isFinite.trans h), F64.abs_sign, F64.abs_magnitude]
  cases x.sign <;> simp [abs_of_nonneg hnonneg]

/-- Settles O50: finite numbers are ordered as their keys are, and a value's sign and magnitude are its pattern's. -/
theorem comparisonsFollowValues : Obligations.ComparisonsFollowValues := by
  unfold Obligations.ComparisonsFollowValues
  exact fun x y hx hy => ⟨F64.eq_iff_toRat hx hy, F64.lt_iff_toRat hx hy, F64.lt_iff_toRat hy hx, F64.ge_iff_toRat hx hy,
    F64.neg_toRat hx, F64.abs_toRat hx⟩

theorem F64.HasValue.neg {x : F64} {a : ℚ} (h : x.HasValue a) : x.neg.HasValue (-a) := by
  obtain ⟨hfin, rfl⟩ := h
  exact ⟨x.neg_isFinite.trans hfin, F64.neg_toRat hfin⟩

theorem F64.HasValue.abs {x : F64} {a : ℚ} (h : x.HasValue a) : x.abs.HasValue |a| := by
  obtain ⟨hfin, rfl⟩ := h
  exact ⟨x.abs_isFinite.trans hfin, F64.abs_toRat hfin⟩

/-! ### Numbers that need no rounding -/

theorem F64.ofMagnitude_hasValue (neg : Bool) {m : Nat} (h : m < F64.infMagnitude) :
    (F64.ofMagnitude neg m).HasValue ((if neg then -1 else 1) * F64.magnitudeValue m) := by
  have h63 : m < 2 ^ 63 := h.trans (by decide)
  have hfin : (F64.ofMagnitude neg m).isFinite = true := by
    rw [F64.isFinite, F64.ofMagnitude_magnitude h63]
    exact decide_eq_true h
  refine ⟨hfin, ?_⟩
  rw [F64.toRat_eq hfin, F64.ofMagnitude_sign h63, F64.ofMagnitude_magnitude h63]

/-- A significand moved down to an exponent no greater than its own. -/
theorem scaled_eq {e e' : ℤ} (h : e' ≤ e) (m : Nat) : ((m * 2 ^ (e - e').toNat : Nat) : ℚ) * 2 ^ e' = (m : ℚ) * 2 ^ e := by
  push_cast
  rw [mul_assoc, ← zpow_natCast, ← zpow_add₀ (by norm_num)]
  congr 2
  omega

/-- A number of at most 53 bits, neither too small nor too large, is not rounded. -/
theorem F64.round_exact (neg : Bool) {m : Nat} {e : ℤ} (hm : m < 2 ^ 53) (hlow : -1074 ≤ e) (hhigh : e ≤ 971) :
    (F64.round neg m e).HasValue ((if neg then -1 else 1) * ((m : ℚ) * 2 ^ e)) := by
  suffices h : ∃ M, F64.round neg m e = F64.ofMagnitude neg M ∧ M < F64.infMagnitude ∧ F64.magnitudeValue M = m * 2 ^ e by
    obtain ⟨M, hround, hM, hvalue⟩ := h
    rw [hround, ← hvalue]
    exact F64.ofMagnitude_hasValue neg hM
  rcases Nat.eq_zero_or_pos m with rfl | hpos
  · exact ⟨0, by rw [F64.round, if_pos rfl], by decide, by simp [F64.magnitudeValue_zero]⟩
  have hlog : Nat.log2 m < 53 := (Nat.log2_lt hpos.ne').2 hm
  obtain ⟨lsb, hlsb⟩ : ∃ lsb, lsb = lastPlace m e := ⟨_, rfl⟩
  have hmax : lsb = max (e + (Nat.log2 m : ℕ) - 52) (-1074) := hlsb
  obtain ⟨q, hq⟩ : ∃ q, q = m * 2 ^ (e - lsb).toNat := ⟨_, rfl⟩
  have hq53 : q < 2 ^ 53 := calc
    q < 2 ^ (Nat.log2 m + 1) * 2 ^ (e - lsb).toNat := hq ▸ Nat.mul_lt_mul_of_pos_right Nat.lt_log2_self (Nat.two_pow_pos _)
    _ = 2 ^ (Nat.log2 m + 1 + (e - lsb).toNat) := (pow_add ..).symm
    _ ≤ 2 ^ 53 := Nat.pow_le_pow_right (by decide) (by omega)
  have hq52 : (lsb + 1074).toNat = 0 ∨ 2 ^ 52 ≤ q := by
    refine or_iff_not_imp_left.2 fun hk => ?_
    calc 2 ^ 52 ≤ 2 ^ (Nat.log2 m + (e - lsb).toNat) := Nat.pow_le_pow_right (by decide) (by omega)
      _ = 2 ^ Nat.log2 m * 2 ^ (e - lsb).toNat := pow_add ..
      _ ≤ q := hq ▸ Nat.mul_le_mul_right _ (Nat.log2_self_le hpos.ne')
  have hM : (lsb + 1074).toNat * 2 ^ 52 + q < F64.infMagnitude := by
    simp only [F64.infMagnitude]
    omega
  refine ⟨(lsb + 1074).toNat * 2 ^ 52 + q, ?_, hM, ?_⟩
  · rw [F64.round_eq hpos.ne' hlsb, if_pos (by omega), ← hq, Nat.min_eq_left hM.le]
  · rw [F64.magnitudeValue_pack hq53.le hq52, show (((lsb + 1074).toNat : ℕ) : ℤ) - 1074 = lsb by omega, hq]
    exact scaled_eq (by omega) m

theorem intSign_mul_natAbs (n : ℤ) : (if decide (n < 0) then -1 else 1 : ℚ) * (n.natAbs : ℚ) = n := by
  rcases lt_or_ge n 0 with h | h
  · rw [decide_eq_true h, if_pos rfl, Nat.cast_natAbs, abs_of_neg h]
    push_cast
    ring
  · rw [decide_eq_false h.not_gt, if_neg (by decide), Nat.cast_natAbs, abs_of_nonneg h, one_mul]

theorem toF64_hasValue {n : ℤ} (h : |n| < 2 ^ 53) : (toF64 n).HasValue n := by
  obtain ⟨hfin, hvalue⟩ := F64.round_exact (decide (n < 0)) (m := n.natAbs) (e := 0)
    (by rw [Int.abs_eq_natAbs] at h; omega) (by decide) (by decide)
  refine ⟨hfin, hvalue.trans ?_⟩
  rw [zpow_zero, mul_one, intSign_mul_natAbs]

/-- Settles O46: an integer below 2^53 has at most 53 bits, so `toF64` does not round it. -/
theorem integersConvertExactly : Obligations.IntegersConvertExactly := by
  unfold Obligations.IntegersConvertExactly
  exact fun n => toF64_hasValue

/-! ### The four operations round once -/

theorem F64.round_roundsTo_all (neg : Bool) (m : Nat) (e : ℤ) :
    RoundsTo ((if neg then -1 else 1) * ((m : ℚ) * 2 ^ e)) (F64.round neg m e) := by
  rcases Nat.eq_zero_or_pos m with rfl | hpos
  · rw [F64.round, if_pos rfl, Nat.cast_zero, zero_mul, mul_zero]
    exact F64.zero_roundsTo neg
  · exact F64.round_roundsTo neg hpos.ne' e

theorem F64.roundQuotient_roundsTo_all (neg : Bool) (a : Nat) {b : Nat} (hb : b ≠ 0) (e : ℤ) :
    RoundsTo ((if neg then -1 else 1) * ((a : ℚ) / b * 2 ^ e)) (F64.roundQuotient neg a b e) := by
  rcases Nat.eq_zero_or_pos a with rfl | hpos
  · have hzero : F64.roundQuotient neg 0 b e = F64.ofMagnitude neg 0 := by simp [F64.roundQuotient, F64.round]
    rw [hzero, Nat.cast_zero, zero_div, zero_mul, mul_zero]
    exact F64.zero_roundsTo neg
  · exact F64.roundQuotient_roundsTo neg hpos.ne' hb e

/-- The sign factor of a product or a quotient. -/
theorem sign_mul_sign (s t : Bool) : (if s != t then -1 else 1 : ℚ) = (if s then -1 else 1) * (if t then -1 else 1) := by
  cases s <;> cases t <;> norm_num

theorem signed_eq (s : Bool) (m : Nat) : (signed s m : ℚ) = (if s then -1 else 1) * (m : ℚ) := by
  cases s <;> simp [signed]

/-- `+` of finite numbers, by the exact sum as an integer of units 2^e. -/
theorem F64.add_eq {x y : F64} (hx : x.isFinite = true) (hy : y.isFinite = true) : ∃ (sum e : ℤ), x.toRat + y.toRat = sum * 2 ^ e ∧
    F64.add x y = if sum = 0 then F64.ofMagnitude (x.sign && y.sign) 0 else F64.round (decide (sum < 0)) sum.natAbs e := by
  obtain ⟨mx, ex, hcx, hvx⟩ := F64.classify_finite hx
  obtain ⟨my, ey, hcy, hvy⟩ := F64.classify_finite hy
  refine ⟨signed x.sign (mx * 2 ^ (ex - min ex ey).toNat) + signed y.sign (my * 2 ^ (ey - min ex ey).toNat), min ex ey, ?_, ?_⟩
  · rw [Int.cast_add, signed_eq, signed_eq, add_mul, mul_assoc, mul_assoc, scaled_eq (min_le_left ..), scaled_eq (min_le_right ..),
      hvx, hvy]
  · simp only [F64.add, hcx, hcy]

/-- What `+` of finite numbers gives: the exact sum rounded once, with IEEE 754's sign. -/
theorem F64.add_spec {x y : F64} (hx : x.isFinite = true) (hy : y.isFinite = true) :
    RoundsTo (x.toRat + y.toRat) (F64.add x y) ∧
    (x.toRat + y.toRat = 0 → F64.add x y = F64.ofMagnitude (x.sign && y.sign) 0) ∧
    (x.toRat + y.toRat ≠ 0 → (F64.add x y).sign = decide (x.toRat + y.toRat < 0)) := by
  obtain ⟨sum, e, hsum, hadd⟩ := F64.add_eq hx hy
  have he : (0 : ℚ) < 2 ^ e := zpow_pos (by norm_num) e
  rw [hadd, hsum]
  by_cases h0 : sum = 0
  · subst h0
    rw [if_pos rfl, Int.cast_zero, zero_mul]
    exact ⟨F64.zero_roundsTo _, fun _ => rfl, fun h => absurd rfl h⟩
  · rw [if_neg h0, F64.round_sign]
    refine ⟨?_, fun h => absurd h (mul_ne_zero (Int.cast_ne_zero.2 h0) he.ne'), fun _ => ?_⟩
    · rw [← intSign_mul_natAbs sum, mul_assoc]
      exact F64.round_roundsTo _ (Int.natAbs_ne_zero.2 h0) e
    · rw [decide_eq_decide, mul_neg_iff, Int.cast_lt_zero]
      simp [he, he.not_gt]

/-- Settles O47: `F64.add_spec`, and `-` is `+` of the negated second operand. -/
theorem additionRoundsOnce : Obligations.AdditionRoundsOnce := by
  unfold Obligations.AdditionRoundsOnce
  intro x y hx hy
  obtain ⟨hround, hzero, hsign⟩ := F64.add_spec hx hy
  have hsub := F64.add_spec hx (y.neg_isFinite.trans hy)
  rw [F64.neg_toRat hy, ← sub_eq_add_neg, F64.neg_sign] at hsub
  exact ⟨hround, hzero, hsign, hsub⟩

theorem F64.mul_spec {x y : F64} (hx : x.isFinite = true) (hy : y.isFinite = true) :
    RoundsTo (x.toRat * y.toRat) (F64.mul x y) ∧ (F64.mul x y).sign = (x.sign != y.sign) := by
  obtain ⟨mx, ex, hcx, hvx⟩ := F64.classify_finite hx
  obtain ⟨my, ey, hcy, hvy⟩ := F64.classify_finite hy
  have hmul : F64.mul x y = F64.round (x.sign != y.sign) (mx * my) (ex + ey) := by simp only [F64.mul, hcx, hcy]
  have hvalue : x.toRat * y.toRat = (if x.sign != y.sign then -1 else 1) * (((mx * my : Nat) : ℚ) * 2 ^ (ex + ey)) := by
    rw [hvx, hvy, sign_mul_sign, zpow_add₀ (by norm_num), Nat.cast_mul]
    ring
  rw [hmul, hvalue]
  exact ⟨F64.round_roundsTo_all _ _ _, F64.round_sign _ _ _⟩

/-- Settles O48: the product of two finite numbers is a significand and an exponent that `F64.round` rounds once. -/
theorem multiplicationRoundsOnce : Obligations.MultiplicationRoundsOnce := by
  unfold Obligations.MultiplicationRoundsOnce
  exact fun x y hx hy => F64.mul_spec hx hy

theorem F64.div_spec {x y : F64} (hx : x.isFinite = true) (hy : y.isFinite = true) (h0 : y.toRat ≠ 0) :
    RoundsTo (x.toRat / y.toRat) (F64.div x y) ∧ (F64.div x y).sign = (x.sign != y.sign) := by
  obtain ⟨mx, ex, hcx, hvx⟩ := F64.classify_finite hx
  obtain ⟨my, ey, hcy, hvy⟩ := F64.classify_finite hy
  have hmy : my ≠ 0 := by
    rintro rfl
    rw [hvy, Nat.cast_zero, zero_mul, mul_zero] at h0
    exact h0 rfl
  have hdiv : F64.div x y = F64.roundQuotient (x.sign != y.sign) mx my (ex - ey) := by simp only [F64.div, hcx, hcy, if_neg hmy]
  have hvalue : x.toRat / y.toRat = (if x.sign != y.sign then -1 else 1) * ((mx : ℚ) / my * 2 ^ (ex - ey)) := by
    have hinv : (if y.sign then -1 else 1 : ℚ)⁻¹ = if y.sign then -1 else 1 := by cases y.sign <;> norm_num
    rw [hvx, hvy, sign_mul_sign, zpow_sub₀ (by norm_num), div_eq_mul_inv, mul_inv, hinv, mul_inv]
    ring
  rw [hdiv, hvalue]
  exact ⟨F64.roundQuotient_roundsTo_all _ _ hmy _, F64.round_sign _ _ _⟩

/-- Settles O49: the quotient of two finite numbers is one of significands, which `F64.roundQuotient` rounds once. -/
theorem divisionRoundsOnce : Obligations.DivisionRoundsOnce := by
  unfold Obligations.DivisionRoundsOnce
  exact fun x y hx hy h0 => F64.div_spec hx hy h0

/-! ### Exact results -/

theorem F64.abs_toRat_lt_overflowBound {x : F64} (h : x.isFinite = true) : |x.toRat| < overflowBound := by
  have hm : x.magnitude < F64.infMagnitude := of_decide_eq_true h
  have hle : F64.magnitudeValue x.magnitude ≤ F64.magnitudeValue (2045 * 2 ^ 52 + (2 ^ 53 - 1)) :=
    F64.magnitudeValue_strictMono.monotone (by simp only [F64.infMagnitude] at hm; omega)
  have hp : (0 : ℚ) < 2 ^ (971 : ℤ) := zpow_pos (by norm_num) _
  rw [F64.magnitudeValue_pack (by decide) (.inr (by decide)), show ((2045 : ℕ) : ℤ) - 1074 = 971 by norm_num] at hle
  rw [← F64.abs_toRat h, F64.toRat_eq (x.abs_isFinite.trans h), F64.abs_sign, F64.abs_magnitude, if_neg (by decide), one_mul,
    overflowBound_eq]
  refine hle.trans_lt (mul_lt_mul_of_pos_right ?_ hp)
  norm_num

/-- A result whose exact value is that of a finite number has that value. -/
theorem Machine.RoundsTo.hasValue {q : ℚ} {r z : F64} (h : RoundsTo q r) (hz : z.HasValue q) : r.HasValue q := by
  obtain ⟨hfz, rfl⟩ := hz
  obtain ⟨hfin, hnear⟩ := h.1 (F64.abs_toRat_lt_overflowBound hfz)
  refine ⟨hfin, by_contra fun hne => ?_⟩
  have hpos : 0 < |z.toRat - r.toRat| := abs_pos.2 (sub_ne_zero.2 (Ne.symm hne))
  rcases hnear z hfz (Ne.symm hne) with hlt | ⟨heq, -⟩
  · rw [sub_self, abs_zero] at hlt
    exact absurd hlt hpos.not_gt
  · rw [sub_self, abs_zero] at heq
    exact hpos.ne' heq

/-- Whether a rounded result is finite, its exact value says. -/
theorem Machine.RoundsTo.isFinite_congr {q : ℚ} {r r' : F64} (h : RoundsTo q r) (h' : RoundsTo q r') (hr : r.isFinite = true) :
    r'.isFinite = true := by
  rcases lt_or_ge |q| overflowBound with hq | hq
  · exact (h'.1 hq).1
  · rw [h'.2 hq, ← h.2 hq]
    exact hr

/-! Where the exact result of an operation is the value of some finite number z, the operation gives that value. -/

section
variable {x y z : F64} {a b : ℚ} (hx : x.HasValue a) (hy : y.HasValue b)
include hx hy

theorem F64.HasValue.add (hz : z.HasValue (a + b)) : (F64.add x y).HasValue (a + b) := by
  obtain ⟨hfx, rfl⟩ := hx
  obtain ⟨hfy, rfl⟩ := hy
  exact (F64.add_spec hfx hfy).1.hasValue hz

theorem F64.HasValue.mul (hz : z.HasValue (a * b)) : (F64.mul x y).HasValue (a * b) := by
  obtain ⟨hfx, rfl⟩ := hx
  obtain ⟨hfy, rfl⟩ := hy
  exact (F64.mul_spec hfx hfy).1.hasValue hz

theorem F64.HasValue.div (hb : b ≠ 0) (hz : z.HasValue (a / b)) : (F64.div x y).HasValue (a / b) := by
  obtain ⟨hfx, rfl⟩ := hx
  obtain ⟨hfy, rfl⟩ := hy
  exact (F64.div_spec hfx hfy hb).1.hasValue hz

end

/-- +0.0 -/
theorem zeroF_hasValue : zeroF.HasValue 0 := by
  have h := F64.ofMagnitude_hasValue false (show 0 < F64.infMagnitude by decide)
  rwa [F64.magnitudeValue_zero, mul_zero] at h

section
variable {x y : F64} {a : ℚ}

theorem F64.HasValue.mul_zero (hx : x.HasValue a) (hy : y.HasValue 0) : (F64.mul x y).HasValue 0 := by
  simpa using hx.mul hy (z := zeroF) (by simpa using zeroF_hasValue)

theorem F64.HasValue.zero_mul (hx : x.HasValue 0) (hy : y.HasValue a) : (F64.mul x y).HasValue 0 := by
  simpa using hx.mul hy (z := zeroF) (by simpa using zeroF_hasValue)

theorem F64.HasValue.zero_div (hx : x.HasValue 0) (hy : y.HasValue a) (ha : a ≠ 0) : (F64.div x y).HasValue 0 := by
  simpa using hx.div hy ha (z := zeroF) (by simpa using zeroF_hasValue)

theorem F64.HasValue.add_zero (hx : x.HasValue a) (hy : y.HasValue 0) : (F64.add x y).HasValue a := by
  simpa using hx.add hy (z := x) (by simpa using hx)

theorem F64.HasValue.zero_add (hx : x.HasValue 0) (hy : y.HasValue a) : (F64.add x y).HasValue a := by
  simpa using hx.add hy (z := y) (by simpa using hy)

/-- A value other than 0 has one pattern. -/
theorem F64.HasValue.unique (hx : x.HasValue a) (hy : y.HasValue a) (ha : a ≠ 0) : x = y := by
  obtain ⟨hfx, rfl⟩ := hx
  obtain ⟨hfy, hvy⟩ := hy
  exact F64.eq_of_toRat_eq hfx hfy hvy.symm (hvy ▸ ha)

end

end Sys2Proof
end

section
/-! PROOFS of 42_angle_estimator: the constants, the branches of ATAN2 on integers, ATANX odd, and the exact angles. -/

namespace Sys2Proof

open Machine

/-! ### Unary minus through `*` (00_scope R11) -/

/-- The class of the negated pattern. -/
def F64.Class.neg : F64.Class → F64.Class
  | .nan => .nan
  | .inf b => .inf (!b)
  | .fin b m e => .fin (!b) m e

theorem F64.neg_classify (x : F64) : x.neg.classify = x.classify.neg := by
  simp only [F64.classify, F64.neg_magnitude, F64.neg_sign]
  split_ifs <;> rfl

theorem F64.ofMagnitude_neg {b : Bool} {m : Nat} (h : m < 2 ^ 63) : (F64.ofMagnitude b m).neg = F64.ofMagnitude (!b) m := by
  rw [F64.neg, F64.ofMagnitude_sign h, F64.ofMagnitude_magnitude h]

theorem F64.infMagnitude_lt : F64.infMagnitude < 2 ^ 63 := by decide

theorem F64.round_neg (b : Bool) (m : Nat) (e : ℤ) : (F64.round b m e).neg = F64.round (!b) m e := by
  rcases Nat.eq_zero_or_pos m with rfl | hpos
  · exact F64.ofMagnitude_neg (by decide)
  · rw [F64.round_eq hpos.ne' rfl, F64.round_eq hpos.ne' rfl]
    exact F64.ofMagnitude_neg (lt_of_le_of_lt (Nat.min_le_right _ _) F64.infMagnitude_lt)

theorem F64.mul_neg_neg (x y : F64) : F64.mul x.neg y.neg = F64.mul x y := by
  unfold F64.mul
  rw [F64.neg_classify, F64.neg_classify]
  cases x.classify <;> cases y.classify <;> simp [F64.Class.neg]

theorem F64.isNaN_qnan : F64.qnan.isNaN = true := by decide

/-- Where a product is a number, negating a factor negates it. -/
theorem F64.mul_neg_right {x y : F64} (h : (F64.mul x y).isNaN = false) : F64.mul x y.neg = (F64.mul x y).neg := by
  unfold F64.mul at h ⊢
  rw [F64.neg_classify]
  cases hx : x.classify <;> cases hy : y.classify <;> simp only [hx, hy, F64.Class.neg] at h ⊢
  case fin.fin => rw [F64.round_neg, Bool.bne_not]
  case inf.inf => rw [F64.ofMagnitude_neg F64.infMagnitude_lt, Bool.bne_not]
  case fin.inf | inf.fin =>
    split_ifs at h ⊢
    · cases F64.isNaN_qnan.symm.trans h
    · rw [F64.ofMagnitude_neg F64.infMagnitude_lt, Bool.bne_not]
  all_goals cases F64.isNaN_qnan.symm.trans h

end Sys2Proof

namespace Sys2Proof.Machine

/-! ### The constants (42_angle_estimator R161) -/

theorem toRat_of_classify {x : F64} {m : Nat} {e : ℤ} (h : x.classify = .fin false m e) : x.toRat = (m : ℚ) * 2 ^ e := by
  simp [F64.toRat, h, signed]

theorem pio2_toRat : pio2.toRat = 7074237752028440 / 2 ^ 52 := by
  rw [toRat_of_classify (m := 7074237752028440) (e := -52) (by decide)]
  norm_num

theorem pio4_toRat : pio4.toRat = 7074237752028440 / 2 ^ 53 := by
  rw [toRat_of_classify (m := 7074237752028440) (e := -53) (by decide)]
  norm_num

theorem piF_eq : piF = ⟨0x400921FB54442D18#64⟩ := by decide +kernel

theorem piF_toRat : piF.toRat = 7074237752028440 / 2 ^ 51 := by
  rw [piF_eq, toRat_of_classify (m := 7074237752028440) (e := -51) (by decide)]
  norm_num

theorem kF_eq : kF = ⟨0x404CA5DC1A63C1F8#64⟩ := by
  rw [kF, piF_eq]
  decide +kernel

theorem sq2m1_toRat : sq2m1.toRat = 7461808180621106 / 2 ^ 54 := by
  rw [toRat_of_classify (m := 7461808180621106) (e := -54) (by decide)]
  norm_num

theorem sq2p1_toRat : sq2p1.toRat = 5436325649948134 / 2 ^ 51 := by
  rw [toRat_of_classify (m := 5436325649948134) (e := -51) (by decide)]
  norm_num

theorem c180_toRat : c180.toRat = 180 := by
  rw [toRat_of_classify (m := 6333186975989760) (e := -45) (by decide)]
  norm_num

/-- The square root of 2 to twenty places. -/
theorem sqrt_two_bounds : (1.41421356237309504880 : ℝ) < Real.sqrt 2 ∧ Real.sqrt 2 < 1.41421356237309504881 :=
  ⟨Real.lt_sqrt_of_sq_lt (by norm_num), (Real.sqrt_lt' (by norm_num)).2 (by norm_num)⟩

/-- Settles O42: the exact values of the constants, against twenty places of pi (Mathlib's) and of the square root of 2. -/
theorem angleConstantsAreNearest : Obligations.AngleConstantsAreNearest := by
  unfold Obligations.AngleConstantsAreNearest
  have hpi := Real.pi_gt_d20
  have hpi' := Real.pi_lt_d20
  obtain ⟨hsqrt, hsqrt'⟩ := sqrt_two_bounds
  simp only [pio2_toRat, pio4_toRat, piF_toRat, sq2m1_toRat, sq2p1_toRat, abs_lt]
  push_cast
  refine ⟨rfl, rfl, rfl, rfl, rfl, rfl, rfl, by norm_num, piF_eq, kF_eq, c180_toRat, ?_, ?_, ?_, ?_, ?_⟩ <;> constructor <;> linarith

/-! ### ATAN2 on integers (42_angle_estimator R163) -/

section
variable {m n : ℤ} (hm : |m| < 2 ^ 53) (hn : |n| < 2 ^ 53)
include hm hn

theorem toF64_eq : F64.eq (toF64 m) (toF64 n) = decide (m = n) := by
  rw [(toF64_hasValue hm).eq (toF64_hasValue hn), decide_eq_decide, Int.cast_inj]

theorem toF64_lt : F64.lt (toF64 m) (toF64 n) = decide (m < n) := by
  rw [(toF64_hasValue hm).lt (toF64_hasValue hn), decide_eq_decide, Int.cast_lt]

theorem toF64_ge : F64.ge (toF64 m) (toF64 n) = decide (n ≤ m) := by
  rw [(toF64_hasValue hm).ge (toF64_hasValue hn), decide_eq_decide, Int.cast_le]

/-- The sum of integers is exact, so the guard of ATAN2's step 1 sees every addend but 0. -/
theorem toF64_add_eq_left (hsum : |m + n| < 2 ^ 53) : F64.eq (F64.add (toF64 m) (toF64 n)) (toF64 m) = decide (n = 0) := by
  have hz : (toF64 (m + n)).HasValue (m + n) := by
    rw [← Int.cast_add]
    exact toF64_hasValue hsum
  rw [((toF64_hasValue hm).add (toF64_hasValue hn) hz).eq (toF64_hasValue hm), decide_eq_decide, add_eq_left, Int.cast_eq_zero]

end

theorem toF64_zero : toF64 0 = zeroF := by decide

/-- ATAN2's branches on integers whose sum needs no rounding. -/
theorem atan2_toF64 (c : Atanx) {x y : ℤ} (hx : |x| < 2 ^ 53) (hy : |y| < 2 ^ 53) (hsum : |y + x| < 2 ^ 53) :
    atan2 c (toF64 y) (toF64 x) =
      if x = 0 then (if y = 0 then zeroF else if 0 ≤ y then pio2 else F64.neg pio2)
      else if x < 0 then
        (if 0 ≤ y then F64.sub piF (atans c (F64.div (F64.neg (toF64 y)) (toF64 x)))
         else F64.add (F64.neg piF) (atans c (F64.div (toF64 y) (toF64 x))))
      else if 0 < y then atans c (F64.div (toF64 y) (toF64 x))
      else F64.neg (atans c (F64.div (F64.neg (toF64 y)) (toF64 x))) := by
  have h0 : |(0 : ℤ)| < 2 ^ 53 := by decide
  simp only [atan2, F64.gt, toF64_add_eq_left hy hx hsum, ← toF64_zero, toF64_eq hy h0, toF64_eq hx h0, toF64_lt hx h0, toF64_lt h0 hy,
    toF64_ge hy h0, Bool.and_eq_true, decide_eq_true_eq]
  by_cases hx0 : x = 0
  · simp only [hx0, and_true, if_true]
  · simp only [hx0, if_false]

/-- Settles O45: the sum of two readings is exact (`toF64_add_eq_left`), and each branch is the one `atan2_toF64` names. -/
theorem atan2GuardsAreExact : Obligations.Atan2GuardsAreExact := by
  unfold Obligations.Atan2GuardsAreExact
  intro c x y hx hx' hy hy'
  have hxb : |x| < 2 ^ 53 := abs_lt.2 ⟨by omega, by omega⟩
  have hyb : |y| < 2 ^ 53 := abs_lt.2 ⟨by omega, by omega⟩
  have hsum : |y + x| < 2 ^ 53 := abs_lt.2 ⟨by omega, by omega⟩
  rw [toF64_add_eq_left hyb hxb hsum, atan2_toF64 c hxb hyb hsum]
  refine ⟨decide_eq_true_iff, fun h1 h2 => ?_, fun h1 h2 => ?_, fun h1 h2 => ?_, fun h1 h2 => ?_, fun h1 h2 => ?_,
    fun h1 h2 => ?_, fun h1 h2 => ?_⟩
  · rw [if_pos h1, if_pos h2]
  · rw [if_pos h1, if_neg (by omega), if_pos h2.le]
  · rw [if_pos h1, if_neg (by omega), if_neg (by omega)]
  · rw [if_neg (by omega), if_pos h1, if_pos h2]
  · rw [if_neg (by omega), if_pos h1, if_neg (by omega)]
  · rw [if_neg (by omega), if_neg (by omega), if_pos h2]
  · rw [if_neg (by omega), if_neg (by omega), if_neg (by omega)]

/-! ### ATANX (42_angle_estimator R165) -/

/-- Settles O44: ATANX of v and of -v have the same t, so the same quotient, and a product changes sign with its factor. -/
theorem atanxIsOdd : Obligations.AtanxIsOdd := by
  unfold Obligations.AtanxIsOdd
  intro c v h
  unfold atanx at h ⊢
  rw [F64.mul_neg_neg]
  exact F64.mul_neg_right h

/-- One step of Horner's rule at a zero leaves the coefficient's value. -/
theorem horner_of_zero {t acc c : F64} (ht : t.HasValue 0) (hacc : acc.isFinite = true) (hc : c.isFinite = true) :
    (horner t acc c).HasValue c.toRat :=
  ((F64.hasValue_toRat hacc).mul_zero ht).zero_add (F64.hasValue_toRat hc)

/-- Four steps leave the value of the last. -/
theorem horner4_of_zero {t acc d3 d2 d1 d0 : F64} (ht : t.HasValue 0) (hacc : acc.isFinite = true) (h3 : d3.isFinite = true)
    (h2 : d2.isFinite = true) (h1 : d1.isFinite = true) (h0 : d0.isFinite = true) :
    (horner t (horner t (horner t (horner t acc d3) d2) d1) d0).HasValue d0.toRat := by
  obtain ⟨f3, -⟩ := horner_of_zero ht hacc h3
  obtain ⟨f2, -⟩ := horner_of_zero ht f3 h2
  obtain ⟨f1, -⟩ := horner_of_zero ht f2 h1
  exact horner_of_zero ht f1 h0

section
variable {c : Atanx} (hc : c.Finite)
include hc

/-- At a zero the numerator is P0 and the denominator Q0, in both forms. -/
theorem atanx_parts_of_zero {t : F64} (ht : t.HasValue 0) :
    (atanxNum c t).HasValue c.p0.toRat ∧ (atanxDen c t).HasValue c.q0.toRat := by
  obtain ⟨hcoeff, -, -⟩ := hc
  simp only [List.forall_mem_cons] at hcoeff
  obtain ⟨p0, p1, p2, p3, p4, q0, q1, q2, q3, q4, -⟩ := hcoeff
  refine ⟨horner4_of_zero ht p4 p3 p2 p1 p0, ?_⟩
  unfold atanxDen
  cases c.form with
  | monic5 =>
    obtain ⟨hlead, -⟩ := ht.zero_add (F64.hasValue_toRat q4)
    exact horner4_of_zero ht hlead q3 q2 q1 q0
  | lit4 => exact horner4_of_zero ht q4 q3 q2 q1 q0

theorem q0_finite_ne_zero : c.q0.isFinite = true ∧ c.q0.toRat ≠ 0 := by
  obtain ⟨hcoeff, hq0, -⟩ := hc
  have hfin : c.q0.isFinite = true := hcoeff _ (by simp)
  rw [(F64.hasValue_toRat hfin).eq zeroF_hasValue] at hq0
  exact ⟨hfin, of_decide_eq_false hq0⟩

/-- ATANX of a zero is a zero (log 14). -/
theorem atanx_of_zero {v : F64} (hv : v.HasValue 0) : (atanx c v).HasValue 0 := by
  obtain ⟨⟨hnum, hnumv⟩, hden, hdenv⟩ := atanx_parts_of_zero hc (hv.mul_zero hv)
  obtain ⟨hq0, hne⟩ := q0_finite_ne_zero hc
  obtain ⟨hcoeff, -, hquot⟩ := hc
  have hround := (F64.div_spec hnum hden (hdenv ▸ hne)).1
  rw [hnumv, hdenv] at hround
  have hfin := (F64.div_spec (hcoeff c.p0 (by simp)) hq0 hne).1.isFinite_congr hround hquot
  exact (F64.hasValue_toRat hfin).mul_zero hv

/-! ### ATANS at 0 and 1 (42_angle_estimator R164) -/

theorem atans_of_zero {v : F64} (hv : v.HasValue 0) : (atans c v).HasValue 0 := by
  have hlt : F64.lt (F64.abs v) sq2m1 = true := by
    rw [hv.abs.lt ⟨by decide, sq2m1_toRat⟩]
    norm_num
  rw [atans, if_pos hlt]
  exact atanx_of_zero hc hv

/-- At 1 the argument of the third branch is a zero. -/
theorem atans_one : atans c oneF = pio4 := by
  have harg : F64.div (F64.sub oneF oneF) (F64.add oneF oneF) = zeroF := by decide +kernel
  have hpio4 : pio4.HasValue _ := ⟨by decide, pio4_toRat⟩
  rw [atans, if_neg (by decide), if_neg (by decide), harg]
  exact (hpio4.add_zero (atanx_of_zero hc zeroF_hasValue)).unique hpio4 (by norm_num)

end

/-! ### The exact angles (42_angle_estimator R169) -/

theorem oneF_hasValue : oneF.HasValue 1 := by
  refine ⟨by decide, ?_⟩
  rw [toRat_of_classify (m := 2 ^ 52) (e := -52) (by decide)]
  norm_num

/-- The quotient of two numbers of one value. -/
theorem div_eq_oneF {a b : F64} {q : ℚ} (ha : a.HasValue q) (hb : b.HasValue q) (h0 : q ≠ 0) : F64.div a b = oneF := by
  have hquot : q / q = 1 := div_self h0
  have hdiv := ha.div hb h0 (z := oneF) (hquot ▸ oneF_hasValue)
  rw [hquot] at hdiv
  exact hdiv.unique oneF_hasValue one_ne_zero

theorem angle_of_atan2 {c : Atanx} {x y : Int} {r : F64} (h : atan2 c (toF64 y) (toF64 x) = r) :
    angle c x y = F64.add (F64.mul r kF) c180 := by
  rw [angle, h]

/-- A zero from ATAN2, of either sign, is 180 degrees. -/
theorem degrees_of_zero {r : F64} (hr : r.HasValue 0) : F64.add (F64.mul r kF) c180 = toF64 180 := by
  have hk : kF.isFinite = true := by rw [kF_eq]; decide
  have h180 : c180.HasValue 180 := ⟨by decide, c180_toRat⟩
  rw [((hr.zero_mul (F64.hasValue_toRat hk)).zero_add h180).unique h180 (by norm_num)]
  decide

section
variable {c : Atanx} {x y : ℤ} (hc : c.Finite) (hx : (toF64 x).HasValue x) (hne : (x : ℚ) ≠ 0)
include hc hx hne

/-- ATANS where y = 0: its argument is a zero. -/
theorem atans_axis : (atans c (F64.div (F64.neg (toF64 0)) (toF64 x))).HasValue 0 := by
  have h0 : (F64.neg (toF64 0)).HasValue 0 := neg_zero (G := ℚ) ▸ (toF64_zero ▸ zeroF_hasValue).neg
  exact atans_of_zero hc (h0.zero_div hx hne)

/-- ATANS where y = x: its argument is 1. -/
theorem atans_diagonal (hyx : y = x) : atans c (F64.div (toF64 y) (toF64 x)) = pio4 := by
  rw [hyx, div_eq_oneF hx hx hne]
  exact atans_one hc

/-- ATANS where y = -x: its argument is 1. -/
theorem atans_antidiagonal (hy : (toF64 y).HasValue y) (hyx : y = -x) :
    atans c (F64.div (F64.neg (toF64 y)) (toF64 x)) = pio4 := by
  have hyx' : -(y : ℚ) = x := by rw [hyx, Int.cast_neg, neg_neg]
  rw [div_eq_oneF (hyx' ▸ hy.neg) hx hne]
  exact atans_one hc

end

/-- Settles O43: ATAN2's branch (O45) with ATANS of a zero or of 1, and the multiple of 45 degrees each constant gives. -/
theorem coefficientIndependentAngles : Obligations.CoefficientIndependentAngles := by
  unfold Obligations.CoefficientIndependentAngles
  intro c x y hx hx' hy hy'
  have hxv : (toF64 x).HasValue x := toF64_hasValue (abs_lt.2 ⟨by omega, by omega⟩)
  have hyv : (toF64 y).HasValue y := toF64_hasValue (abs_lt.2 ⟨by omega, by omega⟩)
  obtain ⟨-, horigin, hnorth, hsouth, hleft, hleftBelow, hrightAbove, hright⟩ := atan2GuardsAreExact c x y hx hx' hy hy'
  have nz : x ≠ 0 → (x : ℚ) ≠ 0 := Int.cast_ne_zero.2
  refine ⟨fun h1 h2 => ?_, fun h1 h2 => ?_, fun h1 h2 => ?_, fun hc => ⟨fun h1 h2 => ?_, fun h1 h2 => ?_, fun h1 h2 => ?_,
    fun h1 h2 => ?_, fun h1 h2 => ?_, fun h1 h2 => ?_⟩⟩
  · rw [angle_of_atan2 (hnorth h1 h2)]
    decide +kernel
  · rw [angle_of_atan2 (horigin h1 h2)]
    exact degrees_of_zero zeroF_hasValue
  · rw [angle_of_atan2 (hsouth h1 h2)]
    decide +kernel
  · rw [angle_of_atan2 (hright h2 h1.le), h1]
    have hzero := (atans_axis hc hxv (nz h2.ne')).neg
    rw [neg_zero] at hzero
    exact degrees_of_zero hzero
  · have hpi : piF.HasValue _ := ⟨by rw [piF_eq]; decide, piF_toRat⟩
    have hzero := (atans_axis hc hxv (nz h2.ne)).neg
    rw [neg_zero] at hzero
    rw [angle_of_atan2 (hleft h2 h1.ge), h1, F64.sub, (hpi.add_zero hzero).unique hpi (by norm_num)]
    decide +kernel
  · rw [angle_of_atan2 (hrightAbove h2 (h1 ▸ h2)), atans_diagonal hc hxv (nz h2.ne') h1]
    decide +kernel
  · rw [angle_of_atan2 (hright h2 (by omega)), atans_antidiagonal hc hxv (nz h2.ne') hyv h1]
    decide +kernel
  · rw [angle_of_atan2 (hleftBelow h2 (h1 ▸ h2)), atans_diagonal hc hxv (nz h2.ne) h1]
    decide +kernel
  · rw [angle_of_atan2 (hleft h2 (by omega)), atans_antidiagonal hc hxv (nz h2.ne) hyv h1]
    decide +kernel

end Sys2Proof.Machine
end
